-- ==== Sys2Proof/Word.lean ====
section
/-! DEFINITION. The widths of the chip8py CORE (00_scope.md R4, section 5): every value is an unsigned integer of one of
these widths, bit 0 the least significant. -/

namespace Sys2Proof

/-- An unsigned byte: a general register, a memory cell, a timer, an immediate `kk` (10_state.md R10). -/
abbrev Byte := BitVec 8

/-- A 16-bit value: an opcode word, `PC`, `I`, a call-stack slot (10_state.md R10). -/
abbrev Word := BitVec 16

/-- The 12-bit immediate address `nnn` (30_encoding.md R51). -/
abbrev Addr12 := BitVec 12

/-- The index of a general register: the 4-bit field `x` or `y`, so that an index out of range cannot arise
(10_state.md R11). -/
abbrev RegIdx := BitVec 4

/-- The sixteen hexadecimal digits by name, so that the decoder can match on a nibble exhaustively and with no wildcard
arm (40_cycle_decode.md R76). -/
inductive Hex where
  | x0 | x1 | x2 | x3 | x4 | x5 | x6 | x7 | x8 | x9 | xA | xB | xC | xD | xE | xF
deriving DecidableEq, Repr

end Sys2Proof
end

