-- ==== Sys2Proof/Syntax.lean ====
section
/-! DEFINITION. The 21 instructions of 30_encoding.md R63, one constructor per row of spec/opcode_table.json in the table's
order, and the names of the reasons for which a word is no instruction (R58). Every operand has exactly the width of its
field, so a term with an operand out of range cannot be written (10_state.md R11, 92_eei_decisions.md D22). -/

namespace Sys2Proof

/-- The instructions. `x` and `y` are register indices, `kk` an immediate byte, `nnn` an immediate address
(30_encoding.md R51, R53). `SHR Vx` and `SHL Vx` carry their unused field `y`, so that encoding a decoded instruction
gives back its word (40_cycle_decode.md R76). -/
inductive Instr where
  /-- `RET`, 00EE (41 R87). -/
  | ret
  /-- `JP addr`, 1nnn (41 R85). -/
  | jpAddr (nnn : Addr12)
  /-- `CALL addr`, 2nnn (41 R86). -/
  | callAddr (nnn : Addr12)
  /-- `SE Vx, byte`, 3xkk (41 R89). -/
  | seVxByte (x : RegIdx) (kk : Byte)
  /-- `SNE Vx, byte`, 4xkk (41 R90). -/
  | sneVxByte (x : RegIdx) (kk : Byte)
  /-- `SE Vx, Vy`, 5xy0 (41 R91). -/
  | seVxVy (x y : RegIdx)
  /-- `LD Vx, byte`, 6xkk (42 R100). -/
  | ldVxByte (x : RegIdx) (kk : Byte)
  /-- `ADD Vx, byte`, 7xkk (42 R101). -/
  | addVxByte (x : RegIdx) (kk : Byte)
  /-- `LD Vx, Vy`, 8xy0 (43 R106). -/
  | ldVxVy (x y : RegIdx)
  /-- `OR Vx, Vy`, 8xy1 (43 R107). -/
  | orVxVy (x y : RegIdx)
  /-- `AND Vx, Vy`, 8xy2 (43 R108). -/
  | andVxVy (x y : RegIdx)
  /-- `XOR Vx, Vy`, 8xy3 (43 R109). -/
  | xorVxVy (x y : RegIdx)
  /-- `ADD Vx, Vy`, 8xy4 (43 R110). -/
  | addVxVy (x y : RegIdx)
  /-- `SUB Vx, Vy`, 8xy5 (43 R111). -/
  | subVxVy (x y : RegIdx)
  /-- `SHR Vx`, 8xy6 (43 R112); `y` is not used. -/
  | shrVx (x y : RegIdx)
  /-- `SUBN Vx, Vy`, 8xy7 (43 R113). -/
  | subnVxVy (x y : RegIdx)
  /-- `SHL Vx`, 8xyE (43 R114); `y` is not used. -/
  | shlVx (x y : RegIdx)
  /-- `SNE Vx, Vy`, 9xy0 (44 R120). -/
  | sneVxVy (x y : RegIdx)
  /-- `LD I, addr`, Annn (44 R121). -/
  | ldIAddr (nnn : Addr12)
  /-- `JP V0, addr`, Bnnn (41 R88). -/
  | jpV0Addr (nnn : Addr12)
  /-- `RND Vx, byte`, Cxkk (44 R122). -/
  | rndVxByte (x : RegIdx) (kk : Byte)
deriving DecidableEq, Repr

/-- Why a word is no instruction: the reasons of 30_encoding.md R58. Every one of them is `InvalidOpcode`. -/
inductive BadWord where
  /-- Family 0, and not 00EE (R55). -/
  | family0
  /-- Family 5 or 9 with a low nibble other than 0 (R56). -/
  | skipNibble
  /-- Family 8 with a low nibble outside the table of R57. -/
  | aluNibble
  /-- Family D, E or F: deferred, no handler bound (R59). -/
  | deferred
deriving DecidableEq, Repr

/-- Why a byte sequence does not begin with an instruction. -/
inductive DecodeError where
  /-- Fewer than the two bytes of an opcode word (30_encoding.md R50). -/
  | truncated
  /-- The first two bytes are a word that is no instruction. -/
  | badWord (b : BadWord)
deriving DecidableEq, Repr

end Sys2Proof
end

