-- ==== Sys2Proof/WellFormed.lean ====
section
/-! DEFINITION. What is well formed. An `Instr` is well formed by its type: every operand has the width of its field, so
there is no ill-formed term to check for. What can be ill formed is an opcode WORD, and the list of 30_encoding.md R58 is
written here from masks and matches alone, independently of the decoder, so that the two can be held against each other.
R63's table of masks and matches stands here too, and its rule for the unused field of SHR and SHL in assembled code. -/

namespace Sys2Proof

/-- Family 0 holds one instruction, the whole word 00EE (30_encoding.md R55; R58 row 1). -/
def Word.family0Ok (w : Word) : Bool := (w &&& 0xF000#16) != 0x0000#16 || w == 0x00EE#16

/-- A word of family 5 has low nibble 0 (30_encoding.md R56; R58 row 2). -/
def Word.family5Ok (w : Word) : Bool := (w &&& 0xF000#16) != 0x5000#16 || (w &&& 0x000F#16) == 0x0000#16

/-- A word of family 8 has a low nibble 0 to 7 or E (30_encoding.md R57; R58 row 3). -/
def Word.family8Ok (w : Word) : Bool :=
  (w &&& 0xF000#16) != 0x8000#16 || decide ((w &&& 0x000F#16).toNat ≤ 7) || (w &&& 0x000F#16) == 0x000E#16

/-- A word of family 9 has low nibble 0 (30_encoding.md R56; R58 row 4). -/
def Word.family9Ok (w : Word) : Bool := (w &&& 0xF000#16) != 0x9000#16 || (w &&& 0x000F#16) == 0x0000#16

/-- The families D, E and F are deferred: no word of theirs is an instruction (30_encoding.md R59; R58 rows 5 to 7). -/
def Word.notDeferred (w : Word) : Bool := decide (w.toNat < 0xD000)

/-- A word that is in none of the rows of 30_encoding.md R58. -/
def Word.wellFormed (w : Word) : Bool :=
  Word.family0Ok w && Word.family5Ok w && Word.family8Ok w && Word.family9Ok w && Word.notDeferred w

/-- A row of the table of 30_encoding.md R63: a word belongs to it when `w AND mask = bits`. -/
structure Row where
  mask : Word
  bits : Word
deriving DecidableEq, Repr

/-- A word belongs to a row (30_encoding.md R63). -/
def Row.holds (r : Row) (w : Word) : Prop := w &&& r.mask = r.bits

/-- The row of an instruction in 30_encoding.md R63, copied from its mask and match columns. -/
def Instr.row : Instr → Row
  | .ret => ⟨0xFFFF#16, 0x00EE#16⟩
  | .jpAddr _ => ⟨0xF000#16, 0x1000#16⟩
  | .callAddr _ => ⟨0xF000#16, 0x2000#16⟩
  | .seVxByte _ _ => ⟨0xF000#16, 0x3000#16⟩
  | .sneVxByte _ _ => ⟨0xF000#16, 0x4000#16⟩
  | .seVxVy _ _ => ⟨0xF00F#16, 0x5000#16⟩
  | .ldVxByte _ _ => ⟨0xF000#16, 0x6000#16⟩
  | .addVxByte _ _ => ⟨0xF000#16, 0x7000#16⟩
  | .ldVxVy _ _ => ⟨0xF00F#16, 0x8000#16⟩
  | .orVxVy _ _ => ⟨0xF00F#16, 0x8001#16⟩
  | .andVxVy _ _ => ⟨0xF00F#16, 0x8002#16⟩
  | .xorVxVy _ _ => ⟨0xF00F#16, 0x8003#16⟩
  | .addVxVy _ _ => ⟨0xF00F#16, 0x8004#16⟩
  | .subVxVy _ _ => ⟨0xF00F#16, 0x8005#16⟩
  | .shrVx _ _ => ⟨0xF00F#16, 0x8006#16⟩
  | .subnVxVy _ _ => ⟨0xF00F#16, 0x8007#16⟩
  | .shlVx _ _ => ⟨0xF00F#16, 0x800E#16⟩
  | .sneVxVy _ _ => ⟨0xF00F#16, 0x9000#16⟩
  | .ldIAddr _ => ⟨0xF000#16, 0xA000#16⟩
  | .jpV0Addr _ => ⟨0xF000#16, 0xB000#16⟩
  | .rndVxByte _ _ => ⟨0xF000#16, 0xC000#16⟩

/-- The form in which the spec assembles an instruction: the unused field `y` of `SHR Vx` and `SHL Vx` is 0
(30_encoding.md R63, decision D19). The decoder accepts any `y`; this is a property of assembled code only. -/
def Instr.asAssembled : Instr → Bool
  | .shrVx _ y => y == 0#4
  | .shlVx _ y => y == 0#4
  | .ret | .jpAddr _ | .callAddr _ | .seVxByte _ _ | .sneVxByte _ _ | .seVxVy _ _ | .ldVxByte _ _ | .addVxByte _ _
  | .ldVxVy _ _ | .orVxVy _ _ | .andVxVy _ _ | .xorVxVy _ _ | .addVxVy _ _ | .subVxVy _ _ | .subnVxVy _ _
  | .sneVxVy _ _ | .ldIAddr _ | .jpV0Addr _ | .rndVxByte _ _ => true

end Sys2Proof
end

