-- ==== Sys2Proof/Decode.lean ====
section
/-! DEFINITION. The decoder of 40_cycle_decode.md R73 to R76 and 30_encoding.md R50 to R59, and after it the encoder,
written from the same table (30_encoding.md R52, R63). The top-nibble values and the word 00EE are the spec's decisions D1
and D2, which it takes from general knowledge (log entries 1 and 2). -/

namespace Sys2Proof

/-- The fields of an opcode word (30_encoding.md R51). -/
def topOf (w : Word) : BitVec 4 := w.extractLsb' 12 4
def xOf (w : Word) : RegIdx := w.extractLsb' 8 4
def yOf (w : Word) : RegIdx := w.extractLsb' 4 4
def nOf (w : Word) : BitVec 4 := w.extractLsb' 0 4
def kkOf (w : Word) : Byte := w.extractLsb' 0 8
def nnnOf (w : Word) : Addr12 := w.extractLsb' 0 12

/-- The digit a nibble is. -/
def hexOf (b : BitVec 4) : Hex :=
  match b.getLsbD 3, b.getLsbD 2, b.getLsbD 1, b.getLsbD 0 with
  | false, false, false, false => .x0
  | false, false, false, true  => .x1
  | false, false, true,  false => .x2
  | false, false, true,  true  => .x3
  | false, true,  false, false => .x4
  | false, true,  false, true  => .x5
  | false, true,  true,  false => .x6
  | false, true,  true,  true  => .x7
  | true,  false, false, false => .x8
  | true,  false, false, true  => .x9
  | true,  false, true,  false => .xA
  | true,  false, true,  true  => .xB
  | true,  true,  false, false => .xC
  | true,  true,  false, true  => .xD
  | true,  true,  true,  false => .xE
  | true,  true,  true,  true  => .xF

/-- The nibble a digit stands for. -/
def nibbleOf : Hex → BitVec 4
  | .x0 => 0x0#4 | .x1 => 0x1#4 | .x2 => 0x2#4 | .x3 => 0x3#4 | .x4 => 0x4#4 | .x5 => 0x5#4 | .x6 => 0x6#4 | .x7 => 0x7#4
  | .x8 => 0x8#4 | .x9 => 0x9#4 | .xA => 0xA#4 | .xB => 0xB#4 | .xC => 0xC#4 | .xD => 0xD#4 | .xE => 0xE#4 | .xF => 0xF#4

/-- The register-register ALU family: dispatch by low nibble (30_encoding.md R57, 43_alu.md R115). -/
def decodeAlu (x y : RegIdx) (n : Hex) : Except BadWord Instr :=
  match n with
  | .x0 => .ok (.ldVxVy x y)
  | .x1 => .ok (.orVxVy x y)
  | .x2 => .ok (.andVxVy x y)
  | .x3 => .ok (.xorVxVy x y)
  | .x4 => .ok (.addVxVy x y)
  | .x5 => .ok (.subVxVy x y)
  | .x6 => .ok (.shrVx x y)
  | .x7 => .ok (.subnVxVy x y)
  | .xE => .ok (.shlVx x y)
  | .x8 | .x9 | .xA | .xB | .xC | .xD | .xF => .error .aluNibble

/-- `Decode(w)`, total on all 65536 words (40_cycle_decode.md R76). It reads the word only (R73). -/
def decode (w : Word) : Except BadWord Instr :=
  match hexOf (topOf w) with
  | .x0 => if nnnOf w = 0x0EE#12 then .ok .ret else .error .family0
  | .x1 => .ok (.jpAddr (nnnOf w))
  | .x2 => .ok (.callAddr (nnnOf w))
  | .x3 => .ok (.seVxByte (xOf w) (kkOf w))
  | .x4 => .ok (.sneVxByte (xOf w) (kkOf w))
  | .x5 => if nOf w = 0x0#4 then .ok (.seVxVy (xOf w) (yOf w)) else .error .skipNibble
  | .x6 => .ok (.ldVxByte (xOf w) (kkOf w))
  | .x7 => .ok (.addVxByte (xOf w) (kkOf w))
  | .x8 => decodeAlu (xOf w) (yOf w) (hexOf (nOf w))
  | .x9 => if nOf w = 0x0#4 then .ok (.sneVxVy (xOf w) (yOf w)) else .error .skipNibble
  | .xA => .ok (.ldIAddr (nnnOf w))
  | .xB => .ok (.jpV0Addr (nnnOf w))
  | .xC => .ok (.rndVxByte (xOf w) (kkOf w))
  | .xD | .xE | .xF => .error .deferred

/-- The opcode word of two consecutive bytes: big-endian, the byte at the lower address holds bits 15 to 8
(20_memory.md R34). -/
def wordOfBytes (hi lo : Byte) : Word := hi ++ lo

/-- The two bytes of an opcode word, the one at the lower address first (20_memory.md R34). -/
def bytesOfWord (w : Word) : List Byte := [w.extractLsb' 8 8, w.extractLsb' 0 8]

/-- Decode the first instruction of a byte sequence and give the bytes after it: every instruction is two bytes
(30_encoding.md R50). Total on any bytes. -/
def decodeBytes : List Byte → Except DecodeError (Instr × List Byte)
  | hi :: lo :: rest =>
    match decode (wordOfBytes hi lo) with
    | .ok i => .ok (i, rest)
    | .error b => .error (.badWord b)
  | [_] | [] => .error .truncated

/-- Format `NNN` (30_encoding.md R52). -/
def formatNNN (top : BitVec 4) (nnn : Addr12) : Word := top ++ nnn

/-- Format `XKK` (30_encoding.md R52). -/
def formatXKK (top : BitVec 4) (x : RegIdx) (kk : Byte) : Word := top ++ x ++ kk

/-- Format `XYN` (30_encoding.md R52). -/
def formatXYN (top : BitVec 4) (x y : RegIdx) (n : BitVec 4) : Word := top ++ x ++ y ++ n

/-- The word of an instruction (30_encoding.md R63). -/
def encode : Instr → Word
  | .ret => 0x00EE#16
  | .jpAddr nnn => formatNNN 0x1#4 nnn
  | .callAddr nnn => formatNNN 0x2#4 nnn
  | .seVxByte x kk => formatXKK 0x3#4 x kk
  | .sneVxByte x kk => formatXKK 0x4#4 x kk
  | .seVxVy x y => formatXYN 0x5#4 x y 0x0#4
  | .ldVxByte x kk => formatXKK 0x6#4 x kk
  | .addVxByte x kk => formatXKK 0x7#4 x kk
  | .ldVxVy x y => formatXYN 0x8#4 x y 0x0#4
  | .orVxVy x y => formatXYN 0x8#4 x y 0x1#4
  | .andVxVy x y => formatXYN 0x8#4 x y 0x2#4
  | .xorVxVy x y => formatXYN 0x8#4 x y 0x3#4
  | .addVxVy x y => formatXYN 0x8#4 x y 0x4#4
  | .subVxVy x y => formatXYN 0x8#4 x y 0x5#4
  | .shrVx x y => formatXYN 0x8#4 x y 0x6#4
  | .subnVxVy x y => formatXYN 0x8#4 x y 0x7#4
  | .shlVx x y => formatXYN 0x8#4 x y 0xE#4
  | .sneVxVy x y => formatXYN 0x9#4 x y 0x0#4
  | .ldIAddr nnn => formatNNN 0xA#4 nnn
  | .jpV0Addr nnn => formatNNN 0xB#4 nnn
  | .rndVxByte x kk => formatXKK 0xC#4 x kk

/-- The bytes of an instruction in memory order. -/
def encodeBytes (i : Instr) : List Byte := bytesOfWord (encode i)

/-- The opcode word whose low `nbits` bits are `w`, every other bit 0 (log entry 16: the numbering of
spec/opcode_table.json is that of the one opcode word). -/
def tableWord (nbits w : Nat) : Word := BitVec.ofNat 16 (w % 2 ^ nbits)

/-- What the decoder reads from an instruction numbered as spec/opcode_table.json numbers it: the word is laid out as the
hardware stores it, high byte first (20_memory.md R34), and decoded. -/
def decodeTableWord (nbits w : Nat) : Option Instr :=
  match decodeBytes (bytesOfWord (tableWord nbits w)) with
  | .ok (i, _) => some i
  | .error _ => none

end Sys2Proof
end

