-- ==== Sys2Proof/Config.lean ====
section
/-! DEFINITION. The implementation parameters of 00_scope.md R4, and the one free value of the machine: the byte the
random source answers. -/

namespace Sys2Proof

/-- `MEM_SIZE`: addresses 0x000 to 0xFFF (00_scope.md R4, 20_memory.md R30). -/
abbrev Config.memSize : Nat := 4096

/-- `PROGRAM_BASE`: where a program is loaded and where `PC` points after reset (00_scope.md R4, 46 R149). -/
abbrev Config.programBase : Word := 0x0200#16

/-- `FLAG_REG`: general register 15 is `VF` (00_scope.md R4, 10_state.md R12). -/
abbrev Config.flagReg : RegIdx := 0xF#4

/-- `STACK_SLOTS`: the call stack holds 16 return addresses (00_scope.md R4, 10_state.md R16). -/
abbrev Config.stackSlots : Nat := 16

/-- The byte the environment answers to the `k`-th draw of the CORE (44_compare_address_random.md R123, decision D11).
It has no body: nothing is known of it, neither distribution nor repetition. DESIGN CHOICE (log entry 8): the answers
stand as one sequence, indexed by the model's own counter `State.draws`. Unsafe only for a claim that compares two
runs with the same counter; no statement of the model does. -/
opaque Config.drawnByte : Nat → Byte

end Sys2Proof
end

