-- ==== Sys2Proof/Machine/State.lean ====
section
/-! DEFINITION. The whole state of the CORE (10_state.md R10), plain data, the reasons a step stops, and the state after
reset (10_state.md R21). -/

namespace Sys2Proof.Machine

/-- Memory as the cells that do not hold 0x00, by strictly rising address (`Memory.wf` in Ops.lean says so). -/
abbrev Memory := List Host.Cell

/-- The architectural state of 10_state.md R10, under the spec's names, and the model's counter of draws. -/
structure State where
  /-- General registers `V[0]` .. `V[15]`; `V[15]` is `VF`, the same storage (R11, R12). -/
  v : Vector Byte 16
  /-- The address register `I` (R13). -/
  i : Word
  /-- The program counter: all 16 bits stored, never masked (R14). -/
  pc : Word
  /-- The call-stack slots `S[0]` .. `S[15]` (R16). -/
  slots : Vector Word 16
  /-- `SP`: the depth of the call stack, 0 to 16 (R17, decision D6). -/
  sp : Fin 17
  /-- The delay timer (R18). -/
  dt : Byte
  /-- The sound timer (R18). -/
  st : Byte
  /-- `Mem[0x000]` .. `Mem[0xFFF]` (R19). -/
  mem : Memory
  /-- The MODEL's own field, not the spec's: how many bytes the CORE has drawn from the random source, so that every
  draw is a fresh free value (log entry 8). -/
  draws : Nat
deriving DecidableEq, Repr

/-- The four faults of 60_exceptions.md R160, with the report of R166 and, as the last argument, the state the faulting
cycle leaves (R168): nothing is rolled back. A fault ends the step; the host decides whether to cycle again from the
state left (R179; log entry 4). -/
inductive Fault where
  /-- R161: raised by the decoder (Machine/Execute.lean) for a word of 30_encoding.md R58. Safe: the spec faults here. -/
  | invalidOpcode (a w : Word) (left : State)
  /-- R162: raised by the fetch (Machine/Step.lean) at the first invalid address. Safe: the spec faults here. -/
  | memoryAccessViolation (addr : Nat) (left : State)
  /-- R163: raised by `CALL addr` at depth 16. Safe: the spec faults here. -/
  | stackOverflow (a w : Word) (left : State)
  /-- R164: raised by `RET` at depth 0. Safe: the spec faults here. -/
  | stackUnderflow (a w : Word) (left : State)
deriving DecidableEq, Repr

/-- The reasons for which the model gives an instruction no meaning. -/
inductive Refusal where
  /-- An arm of `exec` whose instruction has no meaning yet. No arm raises it: all 21 instructions are modelled. Safe. -/
  | notModelled (mnemonic : String)
deriving DecidableEq, Repr

/-- The machine right after reset (10_state.md R21): memory, registers and timers zero, `PC` = 0x200, the stack empty.
DESIGN CHOICE (log entry 6): the slots, whose value the spec leaves unspecified, are 0x0000; unsafe in name only, since no
rule reads a slot at or above `SP`. DESIGN CHOICE (log entry 8): the counter of draws is 0. -/
def State.reset : State where
  v := Vector.replicate 16 0x00#8
  i := 0x0000#16
  pc := Config.programBase
  slots := Vector.replicate 16 0x0000#16
  sp := 0
  dt := 0x00#8
  st := 0x00#8
  mem := []
  draws := 0

end Sys2Proof.Machine
end

