-- ==== Sys2Proof/Machine/Ops.lean ====
section
/-! DEFINITION. The named operations over registers, memory and the call stack, the fetch, and the raising of a fault. Every
read and write of the state by an instruction or by the host goes through one of these. -/

namespace Sys2Proof.Machine

/-! ## Memory (20_memory.md) -/

/-- What an address no cell lists reads as: memory is zero after reset (10_state.md R21). -/
def Memory.unlisted : Byte := 0x00#8

/-- The canonical form from address `lo` on: addresses strictly rising, all of them in range, no cell equal to what an
unlisted address reads as. -/
def Memory.wfFrom (lo : Nat) : Memory → Bool
  | [] => true
  | (a, b) :: rest =>
    decide (lo ≤ a) && decide (a < Config.memSize) && (b != Memory.unlisted) && Memory.wfFrom (a + 1) rest

/-- The canonical form of memory, so that equal memories are equal lists. -/
def Memory.wf (m : Memory) : Bool := Memory.wfFrom 0 m

/-- `Mem[a]` for a valid address `a`. -/
def Memory.lookup (m : Memory) (a : Nat) : Byte :=
  match m with
  | [] => Memory.unlisted
  | (k, b) :: rest => if k = a then b else Memory.lookup rest a

/-- `Mem[a] <- b` for a valid address `a`, in canonical form: writing what an unlisted address reads as removes the
cell. -/
def Memory.put (m : Memory) (a : Nat) (b : Byte) : Memory :=
  match m with
  | [] => if b = Memory.unlisted then [] else [(a, b)]
  | (k, c) :: rest =>
    if a < k then (if b = Memory.unlisted then (k, c) :: rest else (a, b) :: (k, c) :: rest)
    else if a = k then (if b = Memory.unlisted then rest else (a, b) :: rest)
    else (k, c) :: Memory.put rest a b

/-- Write consecutive bytes from `a` on, in address order. -/
def Memory.putAll (m : Memory) (a : Nat) : List Byte → Memory
  | [] => m
  | b :: bs => Memory.putAll (Memory.put m a b) (a + 1) bs

/-- Address validity: the check is on the integer, with no wrap and no masking (20_memory.md R31, decision D10). -/
def addrValid (a : Nat) : Bool := decide (a < Config.memSize)

/-- `MemRead(addr, n)` (20_memory.md R32): the bytes in address order, or the first invalid address. -/
def memRead (m : Memory) (addr : Nat) : Nat → Except Nat (List Byte)
  | 0 => .ok []
  | n + 1 =>
    if addrValid addr then
      match memRead m (addr + 1) n with
      | .ok bs => .ok (Memory.lookup m addr :: bs)
      | .error a => .error a
    else .error addr

/-- `MemWrite(addr, n, v)` (20_memory.md R33, decision D12): all or nothing; no byte is no access. -/
def memWrite (m : Memory) (addr : Nat) (bs : List Byte) : Option Memory :=
  if bs = [] ∨ addr + bs.length ≤ Config.memSize then some (Memory.putAll m addr bs) else none

/-- One byte of memory, `none` where there is no memory (20_memory.md R31). -/
def State.readByte (s : State) (a : Nat) : Option Byte :=
  if addrValid a then some (Memory.lookup s.mem a) else none

/-! ## Registers (10_state.md) -/

/-- Read of a general register; `VF` is index 15 like any other (10_state.md R11, R12). -/
def State.reg (s : State) (x : RegIdx) : Byte := s.v[x.toNat]'x.isLt

/-- Write of a general register. -/
def State.setReg (s : State) (x : RegIdx) (b : Byte) : State := { s with v := s.v.set x.toNat b x.isLt }

/-- Write of the program counter: all 16 bits, no check (10_state.md R14, decision D9). -/
def State.setPc (s : State) (a : Word) : State := { s with pc := a }

/-- Write of the address register: bits 15 to 12 are cleared by every write (10_state.md R13, decision D8). -/
def State.setI (s : State) (a : Word) : State := { s with i := a &&& 0x0FFF#16 }

/-- Write of the delay timer (10_state.md R18). -/
def State.setDt (s : State) (b : Byte) : State := { s with dt := b }

/-- Write of the sound timer (10_state.md R18). -/
def State.setSt (s : State) (b : Byte) : State := { s with st := b }

/-- Replace memory, for the host's writes: no instruction writes memory (20_memory.md R45). -/
def State.setMem (s : State) (m : Memory) : State := { s with mem := m }

/-! ## The call stack (10_state.md R16, R17; decision D6) -/

/-- Call-stack slot `S[k]`. -/
def State.slot (s : State) (k : Fin 16) : Word := s.slots[k.val]'k.isLt

/-- Push: `S[SP] <- w; SP <- SP + 1`; `none` at depth 16, nothing written. -/
def State.push (s : State) (w : Word) : Option State :=
  if h : s.sp.val < 16 then
    some { s with slots := s.slots.set s.sp.val w h, sp := ⟨s.sp.val + 1, Nat.succ_lt_succ h⟩ }
  else none

/-- Pop: `SP <- SP - 1`, then the value is `S[SP]`; `none` at depth 0. The popped slot keeps its bits (DESIGN CHOICE within
decision D7, log entry 7; never read again before it is overwritten, so safe). -/
def State.pop (s : State) : Option (Word × State) :=
  if h : 0 < s.sp.val then
    let k : Fin 16 := ⟨s.sp.val - 1, by omega⟩
    some (s.slot k, { s with sp := ⟨k.val, by omega⟩ })
  else none

/-! ## The random source (44_compare_address_random.md R123) -/

/-- The byte the next draw answers: a free value. -/
def State.nextDraw (s : State) : Byte := Config.drawnByte s.draws

/-- One draw has been made. -/
def State.consumeDraw (s : State) : State := { s with draws := s.draws + 1 }

/-! ## Fetch and faults -/

/-- The advance of `PC` after a successful fetch and before the handler (40_cycle_decode.md R72). -/
def State.advance (s : State) : State := s.setPc (s.pc + 2#16)

/-- Step 1 of a cycle: the byte at `PC`, then the byte at `PC + 1` as an integer, big-endian; or the first of the two
addresses that is invalid. No state changes (40_cycle_decode.md R71, R77; 20_memory.md R31, R34). -/
def State.fetch (s : State) : Except Nat Word :=
  match s.readByte s.pc.toNat with
  | none => .error s.pc.toNat
  | some hi =>
    match s.readByte (s.pc.toNat + 1) with
    | none => .error (s.pc.toNat + 1)
    | some lo => .ok (wordOfBytes hi lo)

/-- Raising one of the three faults that follow the fetch (60_exceptions.md R166, R168): the cycle ends; the report is the
address `a` the word was fetched from and the word `w`; the state left is the state as it is, with `PC = a + 2` and nothing
rolled back. There is no handler address, no saved register and no mode. `a` is `PC - 2` (R168). -/
def State.raise (s : State) (fault : Word → Word → State → Fault) (w : Word) : Host.Outcome State Fault Refusal :=
  .fault (fault (s.pc - 2#16) w s)

/-- Raising the fetch fault (60_exceptions.md R162, R168): before the advance, so the state left is unchanged. -/
def State.raiseFetch (s : State) (addr : Nat) : Host.Outcome State Fault Refusal :=
  .fault (.memoryAccessViolation addr s)

/-- The state a faulting cycle leaves (60_exceptions.md R168). -/
def Fault.left : Fault → State
  | .invalidOpcode _ _ s => s
  | .memoryAccessViolation _ s => s
  | .stackOverflow _ _ s => s
  | .stackUnderflow _ _ s => s

/-- A word placed at `PC`, high byte first, so that the next fetch reads it. Where `PC` cannot be fetched from (above 0xFFE)
it is moved to the program base first (log entry 13). Not an operation of the hardware: it stands for a load. -/
def State.placeWord (s : State) (w : Word) : State :=
  let t := if s.pc.toNat + 1 < Config.memSize then s else s.setPc Config.programBase
  t.setMem (Memory.putAll t.mem t.pc.toNat (bytesOfWord w))

end Sys2Proof.Machine
end

