-- ==== Sys2Proof/Machine/Flags.lean ====
section
/-! DEFINITION. The flag computations of the five flag-writing instructions (10_state.md R12, 43_alu.md R105, R110 to R114):
each is the whole byte 0x00 or 0x01 that `VF` receives. -/

namespace Sys2Proof.Machine

/-- A flag value as the byte stored in `VF` (10_state.md R12). -/
def flagByte (b : Bool) : Byte := if b then 0x01#8 else 0x00#8

/-- Carry: 1 when the unsigned sum exceeds 255 (43_alu.md R110). -/
def carryFlag (a b : Byte) : Byte := flagByte (decide (a.toNat + b.toNat > 255))

/-- Strict unsigned greater-than: 1 when the minuend is greater than the subtrahend, 0 when they are equal (43_alu.md R111,
R113; 90_conflicts.md C1). -/
def greaterFlag (minuend subtrahend : Byte) : Byte := flagByte (decide (minuend.toNat > subtrahend.toNat))

/-- The bit a right shift pushes out: bit 0 before the shift (43_alu.md R112). -/
def shiftOutRight (a : Byte) : Byte := flagByte (a.getLsbD 0)

/-- The bit a left shift pushes out: bit 7 before the shift (43_alu.md R114). -/
def shiftOutLeft (a : Byte) : Byte := flagByte (a.getLsbD 7)

end Sys2Proof.Machine
end

