-- ==== Sys2Proof/Machine/Operands.lean ====
section
/-! DEFINITION. The operand forms and the ways an instruction ends (30_encoding.md R53): zero extension of `nnn` and of a
register, a result into `Vx`, a result and then a flag, a skip, a jump. -/

namespace Sys2Proof.Machine

/-- `zext_16(nnn)` (30_encoding.md R53). -/
def zext12 (nnn : Addr12) : Word := nnn.setWidth 16

/-- `zext_16(V[0])` (41_control_flow.md R88). -/
def zext8 (b : Byte) : Word := b.setWidth 16

/-- The one write `V[x] <- result` (42 R100, R101; 43 R105, flag effect none). -/
def writeResult (x : RegIdx) (result : Byte) (s : State) : Host.Outcome State Fault Refusal :=
  .next (s.setReg x result)

/-- The two writes of a flag-producing instruction, in this order: `V[x] <- result`, then `VF <- flag`; with `x = 0xF` the
result is lost (43_alu.md R105). -/
def writeResultThenFlag (x : RegIdx) (result flag : Byte) (s : State) : Host.Outcome State Fault Refusal :=
  .next ((s.setReg x result).setReg Config.flagReg flag)

/-- A skip: `PC <- PC + 2` once more when the condition holds; the skipped word is not examined (41_control_flow.md R92). -/
def skipIf (condition : Bool) (s : State) : Host.Outcome State Fault Refusal :=
  .next (if condition then s.advance else s)

/-- A jump: `PC` is overwritten, with no check of the target (41_control_flow.md R85). -/
def jumpTo (target : Word) (s : State) : Host.Outcome State Fault Refusal :=
  .next (s.setPc target)

/-- `V[x] <- r AND kk` for a drawn byte `r`, and the draw is counted (44_compare_address_random.md R122). -/
def storeDrawn (r : Byte) (x : RegIdx) (kk : Byte) (s : State) : Host.Outcome State Fault Refusal :=
  .next ((s.setReg x (r &&& kk)).consumeDraw)

end Sys2Proof.Machine
end

