-- ==== Sys2Proof/Machine/Alu.lean ====
section
/-! DEFINITION. The register-register ALU family (43_alu.md R105 to R114). Both operands are read from the state before any
write (R105). -/

namespace Sys2Proof.Machine

/-- `LD Vx, Vy` (R106). -/
def execLdVxVy (x y : RegIdx) (s : State) : Host.Outcome State Fault Refusal := writeResult x (s.reg y) s

/-- `OR Vx, Vy` (R107). -/
def execOrVxVy (x y : RegIdx) (s : State) : Host.Outcome State Fault Refusal := writeResult x (s.reg x ||| s.reg y) s

/-- `AND Vx, Vy` (R108). -/
def execAndVxVy (x y : RegIdx) (s : State) : Host.Outcome State Fault Refusal := writeResult x (s.reg x &&& s.reg y) s

/-- `XOR Vx, Vy` (R109). -/
def execXorVxVy (x y : RegIdx) (s : State) : Host.Outcome State Fault Refusal := writeResult x (s.reg x ^^^ s.reg y) s

/-- `ADD Vx, Vy` (R110): the sum modulo 256; the flag is the carry. -/
def execAddVxVy (x y : RegIdx) (s : State) : Host.Outcome State Fault Refusal :=
  writeResultThenFlag x (s.reg x + s.reg y) (carryFlag (s.reg x) (s.reg y)) s

/-- `SUB Vx, Vy` (R111): the difference modulo 256; the flag is `Vx > Vy`, strict. -/
def execSubVxVy (x y : RegIdx) (s : State) : Host.Outcome State Fault Refusal :=
  writeResultThenFlag x (s.reg x - s.reg y) (greaterFlag (s.reg x) (s.reg y)) s

/-- `SHR Vx` (R112): a logical shift of `Vx` itself by one, whatever `y` is; the flag is the old bit 0. -/
def execShrVx (x : RegIdx) (s : State) : Host.Outcome State Fault Refusal :=
  writeResultThenFlag x (s.reg x >>> 1) (shiftOutRight (s.reg x)) s

/-- `SUBN Vx, Vy` (R113): the operands of SUB exchanged, the destination still `Vx`; the flag is `Vy > Vx`, strict. -/
def execSubnVxVy (x y : RegIdx) (s : State) : Host.Outcome State Fault Refusal :=
  writeResultThenFlag x (s.reg y - s.reg x) (greaterFlag (s.reg y) (s.reg x)) s

/-- `SHL Vx` (R114): `Vx` doubled modulo 256, whatever `y` is; the flag is the old bit 7. -/
def execShlVx (x : RegIdx) (s : State) : Host.Outcome State Fault Refusal :=
  writeResultThenFlag x (s.reg x <<< 1) (shiftOutLeft (s.reg x)) s

end Sys2Proof.Machine
end

