-- ==== Sys2Proof/Machine/CompareAddressRandom.lean ====
section
/-! DEFINITION. The register-compare skip, the address load and the random instruction (44_compare_address_random.md R120 to
R122). -/

namespace Sys2Proof.Machine

/-- `SNE Vx, Vy` (R120): skip when the registers differ. -/
def execSneVxVy (x y : RegIdx) (s : State) : Host.Outcome State Fault Refusal :=
  skipIf (s.reg x != s.reg y) s

/-- `LD I, addr` (R121): `I <- nnn`; no memory access, so no address check. -/
def execLdIAddr (nnn : Addr12) (s : State) : Host.Outcome State Fault Refusal := .next (s.setI (zext12 nnn))

/-- `RND Vx, byte` (R122): one draw is made, also when the mask is 0; `V[x] <- draw AND kk`. -/
def execRndVxByte (x : RegIdx) (kk : Byte) (s : State) : Host.Outcome State Fault Refusal :=
  storeDrawn s.nextDraw x kk s

end Sys2Proof.Machine
end

