-- ==== Sys2Proof/Machine/ControlFlow.lean ====
section
/-! DEFINITION. The control-flow instructions (41_control_flow.md R85 to R91). Each runs with `PC` already advanced past its
own word (40_cycle_decode.md R72). -/

namespace Sys2Proof.Machine

/-- `RET` (R87): `StackUnderflow` at depth 0, else pop into `PC`. -/
def execRet (s : State) : Host.Outcome State Fault Refusal :=
  match s.pop with
  | none => s.raise .stackUnderflow (encode .ret)
  | some (target, t) => jumpTo target t

/-- `JP addr` (R85): `PC <- nnn`. -/
def execJpAddr (nnn : Addr12) (s : State) : Host.Outcome State Fault Refusal := jumpTo (zext12 nnn) s

/-- `CALL addr` (R86): `StackOverflow` at depth 16, else push the advanced `PC`, then `PC <- nnn`. -/
def execCallAddr (nnn : Addr12) (s : State) : Host.Outcome State Fault Refusal :=
  match s.push s.pc with
  | none => s.raise .stackOverflow (encode (.callAddr nnn))
  | some t => jumpTo (zext12 nnn) t

/-- `SE Vx, byte` (R89): skip on equality. -/
def execSeVxByte (x : RegIdx) (kk : Byte) (s : State) : Host.Outcome State Fault Refusal :=
  skipIf (s.reg x == kk) s

/-- `SNE Vx, byte` (R90): skip on inequality. -/
def execSneVxByte (x : RegIdx) (kk : Byte) (s : State) : Host.Outcome State Fault Refusal :=
  skipIf (s.reg x != kk) s

/-- `SE Vx, Vy` (R91): skip on equality of two registers. -/
def execSeVxVy (x y : RegIdx) (s : State) : Host.Outcome State Fault Refusal :=
  skipIf (s.reg x == s.reg y) s

/-- `JP V0, addr` (R88): `PC <- nnn + V[0]`, 16 bits, not reduced modulo 4096; always `V[0]`. -/
def execJpV0Addr (nnn : Addr12) (s : State) : Host.Outcome State Fault Refusal :=
  jumpTo (zext12 nnn + zext8 (s.reg 0#4)) s

end Sys2Proof.Machine
end

