-- ==== Sys2Proof/Machine/Immediate.lean ====
section
/-! DEFINITION. Immediate load and immediate add (42_immediate.md R100, R101); neither writes a flag. -/

namespace Sys2Proof.Machine

/-- `LD Vx, byte` (R100). -/
def execLdVxByte (x : RegIdx) (kk : Byte) (s : State) : Host.Outcome State Fault Refusal := writeResult x kk s

/-- `ADD Vx, byte` (R101): the sum modulo 256; the carry is lost. -/
def execAddVxByte (x : RegIdx) (kk : Byte) (s : State) : Host.Outcome State Fault Refusal :=
  writeResult x (s.reg x + kk) s

end Sys2Proof.Machine
end

