-- ==== Sys2Proof/Machine/Execute.lean ====
section
/-! DEFINITION. Steps 2 to 4 of a cycle: classify the fetched word and run its handler, or fault (40_cycle_decode.md R73 to
R77). -/

namespace Sys2Proof.Machine

/-- Classification and dispatch of the word `w`, after the advance of `PC`: an invalid word raises `InvalidOpcode` and no
handler runs (40_cycle_decode.md R75). -/
def execWord (w : Word) (s : State) : Host.Outcome State Fault Refusal :=
  match decode w with
  | .error _ => s.raise .invalidOpcode w
  | .ok i => exec i s

end Sys2Proof.Machine
end

