-- ==== Sys2Proof/Machine/Step.lean ====
section
/-! DEFINITION. One `cycle` as a step (40_cycle_decode.md R77): fetch, advance, classify, dispatch. -/

namespace Sys2Proof.Machine

/-- One cycle: a next state where the spec's result is `Ok`, a fault where it is a fault (40_cycle_decode.md R77, R78). -/
def step (s : State) : Host.Outcome State Fault Refusal :=
  match s.fetch with
  | .error addr => s.raiseFetch addr
  | .ok w => execWord w s.advance

/-- The state with an instruction of the opcode table stored where the next step fetches (log entries 13, 16). -/
def State.withFetchWord (s : State) (nbits w : Nat) : State := s.placeWord (tableWord nbits w)

end Sys2Proof.Machine
end

