-- ==== Sys2Proof/Machine/HostOps.lean ====
section
/-! DEFINITION. What the host can do to the CORE (46_host_interface.md R140): the result of a `cycle` with its status, the
reset operation, program load and the accessors. Each is atomic and happens between cycles; a run is the list of operations
the host issues, in its order (46 R140, 70 R193). -/

namespace Sys2Proof.Machine

/-- The result of a `cycle` (40_cycle_decode.md R78). -/
inductive Status where
  | ok
  | invalidOpcode (a w : Word)
  | memoryAccessViolation (addr : Nat)
  | stackOverflow (a w : Word)
  | stackUnderflow (a w : Word)
deriving DecidableEq, Repr

/-- The numbers the spec assigns (60_exceptions.md R165, decision D5); no rule depends on them. -/
def Status.code : Status → Nat
  | .ok => 0
  | .invalidOpcode _ _ => 1
  | .memoryAccessViolation _ => 2
  | .stackOverflow _ _ => 3
  | .stackUnderflow _ _ => 4

/-- The report of a fault, without the state it leaves (60_exceptions.md R166). -/
def Fault.status : Fault → Status
  | .invalidOpcode a w _ => .invalidOpcode a w
  | .memoryAccessViolation addr _ => .memoryAccessViolation addr
  | .stackOverflow a w _ => .stackOverflow a w
  | .stackUnderflow a w _ => .stackUnderflow a w

/-- `cycle` as the host sees it (40_cycle_decode.md R70, R78; 46 R141): a status and the state it leaves, from which the
host may cycle again (60_exceptions.md R179). `step` never refuses (no arm of `exec` does); a refusal would leave the state
as it was. -/
def cycle (s : State) : Status × State :=
  match step s with
  | .next t => (.ok, t)
  | .fault f => (f.status, f.left)
  | .refused _ => (.ok, s)

/-- `reset` (70_reset_and_hazards.md R185): the values of 10_state.md R21; the slots are not written and the random source
is not touched. -/
def hostReset (s : State) : State := { State.reset with slots := s.slots, draws := s.draws }

/-- `mem_write` (46_host_interface.md R147): the bytes are written in address order, or the operation is refused whole
(`none`). -/
def hostMemWrite (s : State) (addr : Nat) (bytes : List Byte) : Option State :=
  match memWrite s.mem addr bytes with
  | some m => some (s.setMem m)
  | none => none

/-- `mem_read` (46_host_interface.md R147): the bytes of the range, or refused whole (`none`). -/
def hostMemRead (s : State) (addr n : Nat) : Option (List Byte) :=
  match memRead s.mem addr n with
  | .ok bs => some bs
  | .error _ => none

/-- `load_program` (46_host_interface.md R149): `MemWrite(0x200, len, bytes)`, refused whole where it does not fit. -/
def hostLoadProgram (s : State) (bytes : List Byte) : Option State :=
  hostMemWrite s Config.programBase.toNat bytes

/-- The operations of 46_host_interface.md R140, with their arguments. -/
inductive HostOp where
  | reset
  | cycle
  | loadProgram (bytes : List Byte)
  | getReg (x : RegIdx)
  | setReg (x : RegIdx) (b : Byte)
  | getI
  | setI (a : Word)
  | getPc
  | setPc (a : Word)
  | getDt
  | setDt (b : Byte)
  | getSt
  | setSt (b : Byte)
  | memRead (addr n : Nat)
  | memWrite (addr : Nat) (bytes : List Byte)
  | getDepth
deriving DecidableEq, Repr

/-- What an operation answers (46_host_interface.md R140, column 'result'). -/
inductive HostReply where
  | none
  | ok
  | status (st : Status)
  | byte (b : Byte)
  | word (a : Word)
  | bytes (bs : List Byte)
  | depth (n : Nat)
  /-- A host access outside memory: refused as a whole with `MemoryAccessViolation`, a status of the operation and not a
  fault of a cycle (46 R147, R149; 60 R162). -/
  | refusedMemoryAccessViolation
deriving DecidableEq, Repr

/-- The reply to a write that may be refused, and the state after it: unchanged where it is refused. -/
def writeReply (s : State) (after : Option State) : HostReply × State :=
  match after with
  | some t => (.ok, t)
  | none => (.refusedMemoryAccessViolation, s)

/-- One operation of the host (46_host_interface.md R141 to R149). -/
def hostOp (op : HostOp) (s : State) : HostReply × State :=
  match op with
  | .reset => (.none, hostReset s)
  | .cycle => (.status (cycle s).1, (cycle s).2)
  | .loadProgram bytes => writeReply s (hostLoadProgram s bytes)
  | .getReg x => (.byte (s.reg x), s)
  | .setReg x b => (.none, s.setReg x b)
  | .getI => (.word s.i, s)
  | .setI a => (.none, s.setI a)
  | .getPc => (.word s.pc, s)
  | .setPc a => (.none, s.setPc a)
  | .getDt => (.byte s.dt, s)
  | .setDt b => (.none, s.setDt b)
  | .getSt => (.byte s.st, s)
  | .setSt b => (.none, s.setSt b)
  | .memRead addr n =>
    match hostMemRead s addr n with
    | some bs => (.bytes bs, s)
    | none => (.refusedMemoryAccessViolation, s)
  | .memWrite addr bytes => writeReply s (hostMemWrite s addr bytes)
  | .getDepth => (.depth s.sp.val, s)

/-- A run: the operations in the order the host issues them, with the reply to each (46_host_interface.md R140). -/
def hostRun (ops : List HostOp) (s : State) : List HostReply × State :=
  match ops with
  | [] => ([], s)
  | op :: rest => ((hostOp op s).1 :: (hostRun rest (hostOp op s).2).1, (hostRun rest (hostOp op s).2).2)

end Sys2Proof.Machine
end

