-- ==== Sys2Proof/Safety.lean ====
section
/-! DEFINITION. The terms in which claims about the machine are stated: what two states share (frames), the invariant of the
states a run reaches, reachability under any host, and a run that stays above a stack depth. -/

namespace Sys2Proof.Machine

/-! ## Frames -/

/-- Every general register outside `xs` is the same. -/
def SameRegsExcept (xs : List RegIdx) (s t : State) : Prop := ∀ z, z ∉ xs → t.reg z = s.reg z

/-- The call stack is the same: its depth and every slot (10_state.md R16, R17). -/
def SameStack (s t : State) : Prop := t.sp = s.sp ∧ ∀ k, t.slot k = s.slot k

/-- Both timers are the same (10_state.md R18). -/
def SameTimers (s t : State) : Prop := t.dt = s.dt ∧ t.st = s.st

/-- Every byte of memory reads the same, and the same addresses exist (20_memory.md R30). -/
def SameMemory (s t : State) : Prop := ∀ a, t.readByte a = s.readByte a

/-- Everything but `PC` and the general registers `xs` is the same. -/
def SameBut (xs : List RegIdx) (s t : State) : Prop :=
  SameRegsExcept xs s t ∧ t.i = s.i ∧ SameStack s t ∧ SameTimers s t ∧ SameMemory s t ∧ t.draws = s.draws

/-! ## The invariant -/

/-- Every live return address is at most 0x1000: a `CALL` pushes `a + 2` for an `a` that could be fetched from
(41_control_flow.md R86). -/
abbrev LiveReturnsBounded (s : State) : Prop := ∀ k : Fin 16, k.val < s.sp.val → (s.slot k).toNat ≤ 0x1000

/-- The invariant of 10_state.md R22 (`SP <= 16` and the byte ranges hold by type), with memory in canonical form and the
bound on live return addresses from which the bound on `PC` follows. -/
abbrev State.Inv (s : State) : Prop :=
  Memory.wf s.mem = true ∧ s.i.toNat ≤ 0x0FFF ∧ LiveReturnsBounded s

/-- The states a host can bring the machine to from reset, by any operations in any order (10_state.md R22, R23; 46 R140);
a cycle after a fault runs from the state the fault left (60_exceptions.md R179). -/
inductive Reachable : State → Prop where
  | reset : Reachable State.reset
  | op (o : HostOp) (s : State) (h : Reachable s) : Reachable (hostOp o s).2

/-! ## Runs -/

/-- The host brings the machine from the first state to the second by operations after each of which the depth of the call
stack is above `d` (41_control_flow.md R93). -/
inductive RunAbove (d : Nat) : State → State → Prop where
  | start (s : State) (h : d < s.sp.val) : RunAbove d s s
  | op (o : HostOp) (s t : State) (h : RunAbove d s t) (above : d < (hostOp o t).2.sp.val) : RunAbove d s (hostOp o t).2

/-- A run of `n` cycles that all end `Ok`, the host doing nothing else: a safe run (70_reset_and_hazards.md R193). -/
inductive OkRun : Nat → State → State → Prop where
  | none (s : State) : OkRun 0 s s
  | cycle (n : Nat) (s t u : State) (h : OkRun n s t) (ok : step t = .next u) : OkRun (n + 1) s u

end Sys2Proof.Machine
end

