-- ==== Sys2Proof/Certificates/Slice0/Obligations.lean ====
section
/-! DEFINITION. The statements for the provers. Each docstring names the rule of spec/ the statement formalises. In a
statement about `exec`, the state is the one the handler sees: `PC` is already `a + 2` (40_cycle_decode.md R72). A statement
about a drawn byte holds for every answer of the random source: nothing is known of `Config.drawnByte`, nor of
`State.draws`. The top nibbles in the words of the statements and the word 00EE are the spec's decisions D1 and D2 (log
entries 1 and 2). A docstring that says 'the spec's own inference' or 'the spec's decision' names a sentence the spec marks so. -/

open Sys2Proof Sys2Proof.Machine

/-! ## Encoding -/

/-- Decoding the bytes of any instruction, whatever follows them, gives the instruction back, every operand at every value
(30_encoding.md R50, R52, R63; 20_memory.md R34). -/
def Obligations.DecodeAfterEncodeIsIdentity : Prop :=
  ∀ (i : Instr) (rest : List Byte), decodeBytes (encodeBytes i ++ rest) = .ok (i, rest)

/-- Decode followed by encode returns the original word, the unused field of SHR and SHL included (40_cycle_decode.md
R76). -/
def Obligations.EncodeAfterDecodeReturnsWord : Prop :=
  ∀ (w : Word) (i : Instr), decode w = .ok i → encode i = w

/-- The decoder refuses exactly the words of the list of 30_encoding.md R58. -/
def Obligations.InvalidWordsAreTheListedOnes : Prop :=
  ∀ w : Word, (∃ b, decode w = .error b) ↔ Word.wellFormed w = false

/-- The rows of 30_encoding.md R63 are pairwise disjoint; a word belongs to the row of the instruction it decodes to, and a
word that decodes to none belongs to no row. -/
def Obligations.RowsAreDisjointAndDecide : Prop :=
  ∀ w : Word,
    (∀ i j : Instr, i.row.holds w → j.row.holds w → i.row = j.row) ∧
    (∀ i, decode w = .ok i → i.row.holds w) ∧
    (∀ b, decode w = .error b → ∀ i : Instr, ¬ i.row.holds w)

/-- A few words written out from the spec's encodings (30_encoding.md R63): one of each family 0 to C that has an
instruction, and one of each family D, E, F, which has none (45_deferred_families.md R131). -/
def Obligations.SampleWordsDecode : Prop :=
  (decode 0x00EE#16 = .ok .ret ∧ decode 0x124E#16 = .ok (.jpAddr 0x24E#12) ∧ decode 0x2ABC#16 = .ok (.callAddr 0xABC#12) ∧
    decode 0x332A#16 = .ok (.seVxByte 3#4 0x2A#8) ∧ decode 0x432A#16 = .ok (.sneVxByte 3#4 0x2A#8) ∧
    decode 0x5120#16 = .ok (.seVxVy 1#4 2#4) ∧ decode 0x6A8F#16 = .ok (.ldVxByte 0xA#4 0x8F#8) ∧
    decode 0x7120#16 = .ok (.addVxByte 1#4 0x20#8) ∧ decode 0x8127#16 = .ok (.subnVxVy 1#4 2#4) ∧
    decode 0x9AF0#16 = .ok (.sneVxVy 0xA#4 0xF#4) ∧ decode 0xA123#16 = .ok (.ldIAddr 0x123#12) ∧
    decode 0xBABC#16 = .ok (.jpV0Addr 0xABC#12) ∧ decode 0xC30F#16 = .ok (.rndVxByte 3#4 0x0F#8)) ∧
  (decode 0xD123#16 = .error .deferred ∧ decode 0xE19E#16 = .error .deferred ∧ decode 0xF107#16 = .error .deferred)

/-! ## The cycle and its faults -/

/-- The fetch (40_cycle_decode.md R71): the two bytes at `PC`, `w = hi * 256 + lo`; it succeeds exactly for `PC <= 0xFFE`;
otherwise the cycle ends with the first invalid address and the state unchanged. -/
def Obligations.FetchReadsBigEndianWord : Prop :=
  ∀ s : State,
    (s.pc.toNat ≤ 0xFFE → ∃ hi lo w, memRead s.mem s.pc.toNat 2 = .ok [hi, lo] ∧
      s.readByte s.pc.toNat = some hi ∧ s.readByte (s.pc.toNat + 1) = some lo ∧
      s.fetch = .ok w ∧ w.toNat = hi.toNat * 256 + lo.toNat) ∧
    (s.pc.toNat = 0xFFF → step s = .fault (.memoryAccessViolation 0x1000 s)) ∧
    (0xFFF < s.pc.toNat → step s = .fault (.memoryAccessViolation s.pc.toNat s)) ∧
    ((∃ w, s.fetch = .ok w) ↔ s.pc.toNat ≤ 0xFFE)

/-- Where the fetched word decodes to an instruction, the step is `exec` of it on the state with `PC` advanced by 2; the
advance does not wrap (40_cycle_decode.md R72, R74, R77). Every instruction is well formed by its type. -/
def Obligations.StepRunsTheDecodedInstruction : Prop :=
  ∀ (s : State) (w : Word) (i : Instr), s.fetch = .ok w → decode w = .ok i →
    step s = exec i (s.setPc (s.pc + 2#16)) ∧ (s.pc + 2#16).toNat = s.pc.toNat + 2

/-- `InvalidOpcode` is raised for exactly the invalid words, after the fetch and the advance, with the report `(a, w)` and
nothing else changed (60_exceptions.md R161; 40_cycle_decode.md R75). -/
def Obligations.InvalidOpcodeForExactlyTheInvalidWords : Prop :=
  ∀ (s : State) (a w : Word) (left : State),
    step s = .fault (.invalidOpcode a w left) ↔
      (s.fetch = .ok w ∧ Word.wellFormed w = false ∧ a = s.pc ∧ left = s.setPc (s.pc + 2#16))

/-- A step is never refused, and it ends in a fault exactly in the four cases of 60_exceptions.md R161 to R164, each with its
report and the state it leaves (R160, R166, R167, R168). The states left and the contents of a report are the spec's
decisions D4 and D5 (log entries 4 and 17). -/
def Obligations.StepFaultsExactlyInTheFourCases : Prop :=
  ∀ s : State,
    (∀ r, step s ≠ .refused r) ∧
    (∀ f, step s = .fault f ↔
      (0xFFF ≤ s.pc.toNat ∧ f = .memoryAccessViolation (max s.pc.toNat 0x1000) s) ∨
      (∃ w, s.fetch = .ok w ∧ Word.wellFormed w = false ∧ f = .invalidOpcode s.pc w (s.setPc (s.pc + 2#16))) ∨
      (∃ nnn : Addr12, s.fetch = .ok (0x2#4 ++ nnn) ∧ s.sp.val = 16 ∧
        f = .stackOverflow s.pc (0x2#4 ++ nnn) (s.setPc (s.pc + 2#16))) ∨
      (s.fetch = .ok 0x00EE#16 ∧ s.sp.val = 0 ∧ f = .stackUnderflow s.pc 0x00EE#16 (s.setPc (s.pc + 2#16))))

/-- The state a faulting cycle leaves (60_exceptions.md R168): the fetch fault leaves everything; the other three have
advanced `PC` by 2 and changed nothing else, and `PC - 2` is the address reported. That nothing is rolled back is the spec's
decision D4 (log entry 4). -/
def Obligations.FaultLeavesOnlyTheAdvance : Prop :=
  ∀ s : State,
    (∀ addr left, step s = .fault (.memoryAccessViolation addr left) → left = s) ∧
    (∀ a w left, step s = .fault (.invalidOpcode a w left) →
      left.pc = s.pc + 2#16 ∧ SameBut [] s left ∧ a = s.pc ∧ a = left.pc - 2#16) ∧
    (∀ a w left, step s = .fault (.stackOverflow a w left) →
      left.pc = s.pc + 2#16 ∧ SameBut [] s left ∧ left.sp.val = 16 ∧ a = s.pc ∧ a = left.pc - 2#16) ∧
    (∀ a w left, step s = .fault (.stackUnderflow a w left) →
      left.pc = s.pc + 2#16 ∧ SameBut [] s left ∧ left.sp.val = 0 ∧ a = s.pc ∧ a = left.pc - 2#16)

/-- No fault latch (60_exceptions.md R179): after a fetch fault the next cycle faults again in the same way; after any other
fault the next cycle does what stands at `a + 2`, whatever that is: it runs the instruction there, ending as that
instruction ends, or faults on the invalid word there, or on the fetch where `a + 2` is outside memory. The states left are
the spec's decision D4 (log entry 4). -/
def Obligations.CycleAfterFaultRunsOn : Prop :=
  (∀ s t addr, cycle s = (.memoryAccessViolation addr, t) → t = s ∧ cycle t = (.memoryAccessViolation addr, t)) ∧
  (∀ s t f, step s = .fault f → (∀ addr left, f ≠ .memoryAccessViolation addr left) → cycle s = (f.status, t) →
    t.pc = s.pc + 2#16 ∧
    (∀ w i, t.fetch = .ok w → decode w = .ok i →
      step t = exec i (t.setPc (s.pc + 4#16)) ∧
      (∀ u, exec i (t.setPc (s.pc + 4#16)) = .next u → cycle t = (.ok, u)) ∧
      (∀ g, exec i (t.setPc (s.pc + 4#16)) = .fault g → cycle t = (g.status, g.left))) ∧
    (∀ w, t.fetch = .ok w → Word.wellFormed w = false →
      cycle t = (.invalidOpcode (s.pc + 2#16) w, t.setPc (s.pc + 4#16))) ∧
    (s.pc.toNat = 0xFFE → cycle t = (.memoryAccessViolation 0x1000, t)))

/-! ## Whole-machine rules -/

/-- Only the random instruction depends on the random source: with any other word the cycle's status and the state it leaves
are the same whatever has been drawn (40_cycle_decode.md R79), the draws being counted in the model's own field (log
entry 8). -/
def Obligations.DrawsMatterOnlyToRnd : Prop :=
  ∀ (s : State) (n : Nat), (∀ (x : RegIdx) (kk : Byte), s.fetch ≠ .ok (0xC#4 ++ x ++ kk)) →
    cycle { s with draws := n } = ((cycle s).1, { (cycle s).2 with draws := n })

/-- No cycle result depends on what the timer scheduler does: the spec's own inference from 10_state.md R18
(46_host_interface.md R150). -/
def Obligations.TimersDoNotAffectTheCycle : Prop :=
  ∀ (s : State) (d e : Byte),
    hostOp .cycle (hostOp (.setSt e) (hostOp (.setDt d) s).2).2 =
      ((hostOp .cycle s).1, (hostOp (.setSt e) (hostOp (.setDt d) (hostOp .cycle s).2).2).2)

/-- A cycle, also a faulting one, changes no byte of memory and no timer (20_memory.md R43, R45; 10_state.md R18). -/
def Obligations.CycleKeepsMemoryAndTimers : Prop :=
  ∀ s : State, SameMemory s (cycle s).2 ∧ (cycle s).2.mem = s.mem ∧ SameTimers s (cycle s).2

/-- Only `LD I, addr` writes the address register, and it writes its own `nnn` (10_state.md R13). -/
def Obligations.OnlyLdIWritesAddressRegister : Prop :=
  ∀ s t : State, step s = .next t →
    (∃ nnn : Addr12, s.fetch = .ok (0xA#4 ++ nnn) ∧ t.i.toNat = nnn.toNat) ∨
    ((∀ nnn : Addr12, s.fetch ≠ .ok (0xA#4 ++ nnn)) ∧ t.i = s.i)

/-- Only `CALL` and `RET` move the call stack; only `CALL` writes a slot, and one slot (10_state.md R16, R17). That the
slot `RET` pops keeps its bits is the model's choice (log entry 7): 41_control_flow.md R87 says so, 10_state.md R17 and
decision D7 call such a slot unspecified. -/
def Obligations.OnlyCallAndRetMoveTheStack : Prop :=
  ∀ s t : State, step s = .next t →
    (∃ nnn : Addr12, s.fetch = .ok (0x2#4 ++ nnn) ∧ t.sp.val = s.sp.val + 1 ∧
      ∀ k : Fin 16, k.val ≠ s.sp.val → t.slot k = s.slot k) ∨
    (s.fetch = .ok 0x00EE#16 ∧ t.sp.val + 1 = s.sp.val ∧ ∀ k, t.slot k = s.slot k) ∨
    ((∀ nnn : Addr12, s.fetch ≠ .ok (0x2#4 ++ nnn)) ∧ s.fetch ≠ .ok 0x00EE#16 ∧ SameStack s t)

/-- `VF` changes only in the five flag-writing instructions, which leave 0x00 or 0x01 in it, or as the ordinary destination
`x = 0xF` of an instruction that writes a register (10_state.md R12). -/
def Obligations.OnlyFlagWritersOrDestinationChangeVF : Prop :=
  ∀ (i : Instr) (s t : State), exec i s = .next t →
    match i with
    | .addVxVy _ _ | .subVxVy _ _ | .shrVx _ _ | .subnVxVy _ _ | .shlVx _ _ => t.reg 0xF#4 = 0x00#8 ∨ t.reg 0xF#4 = 0x01#8
    | .ldVxByte x _ | .addVxByte x _ | .ldVxVy x _ | .orVxVy x _ | .andVxVy x _ | .xorVxVy x _ | .rndVxByte x _ =>
      x ≠ 0xF#4 → t.reg 0xF#4 = s.reg 0xF#4
    | .ret | .jpAddr _ | .callAddr _ | .seVxByte _ _ | .sneVxByte _ _ | .seVxVy _ _ | .sneVxVy _ _ | .ldIAddr _
    | .jpV0Addr _ => t.reg 0xF#4 = s.reg 0xF#4

/-- Exactly one draw is made per executed `RND Vx, byte`, and no other instruction draws (44_compare_address_random.md
R122), counted in the model's own field (log entry 8). -/
def Obligations.OneDrawPerRndAndNoOther : Prop :=
  ∀ s t : State, step s = .next t →
    (∃ (x : RegIdx) (kk : Byte), s.fetch = .ok (0xC#4 ++ x ++ kk) ∧ t.draws = s.draws + 1) ∨
    ((∀ (x : RegIdx) (kk : Byte), s.fetch ≠ .ok (0xC#4 ++ x ++ kk)) ∧ t.draws = s.draws)

/-- How each operation changes `PC` (10_state.md R15); `a` is `s.pc`. That no sum wraps within a cycle is the spec's own
inference from R14, 20_memory.md R31 and 40_cycle_decode.md R72; that `PC` stays `a + 2` after a fault is the spec's decision
D4 (log entry 4), and that the host may set any value its decision D9 (log entry 11). -/
def Obligations.PcAfterEachOperation : Prop :=
  (∀ s addr left, step s = .fault (.memoryAccessViolation addr left) → left.pc = s.pc) ∧
  (∀ s a w left, (step s = .fault (.invalidOpcode a w left) ∨ step s = .fault (.stackOverflow a w left) ∨
      step s = .fault (.stackUnderflow a w left)) → left.pc = s.pc + 2#16) ∧
  (∀ s t w i, s.fetch = .ok w → decode w = .ok i → step s = .next t →
    ((s.pc + 2#16).toNat = s.pc.toNat + 2 ∧ s.pc.toNat + 2 ≤ 0x1000 ∧ (s.pc + 4#16).toNat = s.pc.toNat + 4) ∧
    match i with
    | .ret => ∃ k : Fin 16, k.val + 1 = s.sp.val ∧ t.pc = s.slot k
    | .jpAddr nnn => t.pc = nnn.setWidth 16
    | .callAddr nnn => t.pc = nnn.setWidth 16 ∧ ∃ k : Fin 16, k.val = s.sp.val ∧ t.slot k = s.pc + 2#16
    | .jpV0Addr nnn => t.pc = nnn.setWidth 16 + (s.reg 0#4).setWidth 16 ∧ t.pc.toNat ≤ 0x10FE
    | .seVxByte x kk => t.pc = if s.reg x = kk then s.pc + 4#16 else s.pc + 2#16
    | .sneVxByte x kk => t.pc = if s.reg x = kk then s.pc + 2#16 else s.pc + 4#16
    | .seVxVy x y => t.pc = if s.reg x = s.reg y then s.pc + 4#16 else s.pc + 2#16
    | .sneVxVy x y => t.pc = if s.reg x = s.reg y then s.pc + 2#16 else s.pc + 4#16
    | .ldVxByte _ _ | .addVxByte _ _ | .ldVxVy _ _ | .orVxVy _ _ | .andVxVy _ _ | .xorVxVy _ _ | .addVxVy _ _
    | .subVxVy _ _ | .shrVx _ _ | .subnVxVy _ _ | .shlVx _ _ | .ldIAddr _ | .rndVxByte _ _ => t.pc = s.pc + 2#16) ∧
  (∀ s : State, (hostOp .reset s).2.pc = 0x0200#16) ∧
  (∀ (s : State) (v : Word), (hostOp (.setPc v) s).2.pc = v)

/-! ## Control flow -/

/-- `JP addr` (41_control_flow.md R85). -/
def Obligations.JpLoadsPc : Prop :=
  ∀ (nnn : Addr12) (s : State),
    decode (0x1#4 ++ nnn) = .ok (.jpAddr nnn) ∧
    (∃ t, exec (.jpAddr nnn) s = .next t ∧ t.pc = nnn.setWidth 16 ∧ SameBut [] s t ∧
      (nnn = 0xFFF#12 → step t = .fault (.memoryAccessViolation 0x1000 t))) ∧
    (s.fetch = .ok (0x1#4 ++ nnn) → s.pc = nnn.setWidth 16 → step s = .next s)

/-- `CALL addr` (41_control_flow.md R86): below depth 16 it pushes the advanced `PC` and jumps; at depth 16 it raises
`StackOverflow` with nothing written. -/
def Obligations.CallPushesAndJumps : Prop :=
  ∀ (nnn : Addr12) (s : State),
    decode (0x2#4 ++ nnn) = .ok (.callAddr nnn) ∧
    (∀ h : s.sp.val < 16, ∃ t, exec (.callAddr nnn) s = .next t ∧ t.pc = nnn.setWidth 16 ∧ t.sp.val = s.sp.val + 1 ∧
      t.slot ⟨s.sp.val, h⟩ = s.pc ∧ (∀ k : Fin 16, k.val ≠ s.sp.val → t.slot k = s.slot k) ∧
      SameRegsExcept [] s t ∧ t.i = s.i ∧ SameTimers s t ∧ SameMemory s t ∧ t.draws = s.draws) ∧
    (s.sp.val = 16 → exec (.callAddr nnn) s = .fault (.stackOverflow (s.pc - 2#16) (0x2#4 ++ nnn) s))

/-- `RET` (41_control_flow.md R87): above depth 0 it pops the slot last pushed into `PC`; at depth 0 it raises
`StackUnderflow` with nothing written. That the popped slot keeps its bits is the model's choice (log entry 7): R87 says so,
10_state.md R17 and decision D7 call such a slot unspecified. The word 00EE is the spec's decision D2 (log entry 2). -/
def Obligations.RetPopsIntoPc : Prop :=
  decode 0x00EE#16 = .ok .ret ∧
  ∀ s : State,
    (∀ h : 0 < s.sp.val, ∃ t, exec .ret s = .next t ∧ t.sp.val + 1 = s.sp.val ∧
      t.pc = s.slot ⟨s.sp.val - 1, by omega⟩ ∧ (∀ k, t.slot k = s.slot k) ∧
      SameRegsExcept [] s t ∧ t.i = s.i ∧ SameTimers s t ∧ SameMemory s t ∧ t.draws = s.draws) ∧
    (s.sp.val = 0 → exec .ret s = .fault (.stackUnderflow (s.pc - 2#16) 0x00EE#16 s))

/-- `JP V0, addr` (41_control_flow.md R88): the sum is not reduced modulo 4096 and never truncated; a sum outside memory
faults in the next cycle. -/
def Obligations.JpV0AddsRegisterZero : Prop :=
  ∀ (nnn : Addr12) (s : State),
    decode (0xB#4 ++ nnn) = .ok (.jpV0Addr nnn) ∧
    ∃ t, exec (.jpV0Addr nnn) s = .next t ∧ t.pc.toNat = nnn.toNat + (s.reg 0#4).toNat ∧ t.pc.toNat ≤ 0x10FE ∧
      SameBut [] s t ∧ (0x1000 ≤ t.pc.toNat → step t = .fault (.memoryAccessViolation t.pc.toNat t))

/-- `SE Vx, byte` (41_control_flow.md R89). -/
def Obligations.SeByteSkipsOnEquality : Prop :=
  ∀ (x : RegIdx) (kk : Byte) (s : State),
    decode (0x3#4 ++ x ++ kk) = .ok (.seVxByte x kk) ∧
    ∃ t, exec (.seVxByte x kk) s = .next t ∧ SameBut [] s t ∧
      (s.reg x = kk → t.pc = s.pc + 2#16) ∧ (s.reg x ≠ kk → t.pc = s.pc)

/-- `SNE Vx, byte` (41_control_flow.md R90). -/
def Obligations.SneByteSkipsOnInequality : Prop :=
  ∀ (x : RegIdx) (kk : Byte) (s : State),
    decode (0x4#4 ++ x ++ kk) = .ok (.sneVxByte x kk) ∧
    ∃ t, exec (.sneVxByte x kk) s = .next t ∧ SameBut [] s t ∧
      (s.reg x ≠ kk → t.pc = s.pc + 2#16) ∧ (s.reg x = kk → t.pc = s.pc)

/-- `SE Vx, Vy` (41_control_flow.md R91); with any other low nibble the word is invalid. -/
def Obligations.SeRegistersSkipsOnEquality : Prop :=
  ∀ (x y : RegIdx) (s : State),
    decode (0x5#4 ++ x ++ y ++ 0x0#4) = .ok (.seVxVy x y) ∧
    (∀ n : BitVec 4, n ≠ 0x0#4 → decode (0x5#4 ++ x ++ y ++ n) = .error .skipNibble) ∧
    ∃ t, exec (.seVxVy x y) s = .next t ∧ SameBut [] s t ∧
      (s.reg x = s.reg y → t.pc = s.pc + 2#16) ∧ (s.reg x ≠ s.reg y → t.pc = s.pc)

/-- `SNE Vx, Vy` (44_compare_address_random.md R120); with any other low nibble the word is invalid. -/
def Obligations.SneRegistersSkipsOnInequality : Prop :=
  ∀ (x y : RegIdx) (s : State),
    decode (0x9#4 ++ x ++ y ++ 0x0#4) = .ok (.sneVxVy x y) ∧
    (∀ n : BitVec 4, n ≠ 0x0#4 → decode (0x9#4 ++ x ++ y ++ n) = .error .skipNibble) ∧
    ∃ t, exec (.sneVxVy x y) s = .next t ∧ SameBut [] s t ∧
      (s.reg x ≠ s.reg y → t.pc = s.pc + 2#16) ∧ (s.reg x = s.reg y → t.pc = s.pc)

/-- The skip law (41_control_flow.md R92), from the address `a` of the skip: 4 when the condition holds, 2 otherwise, the
one word at `a` having been read; the skipped word is not examined, so replacing memory outside the two bytes at `a` changes
nothing else in the outcome. -/
def Obligations.SkipsAdvanceByFourOrTwo : Prop :=
  ∀ (s : State) (w : Word) (x y : RegIdx) (kk : Byte) (m : Memory),
    s.fetch = .ok w → (s.setMem m).fetch = .ok w →
    (w = 0x3#4 ++ x ++ kk → ∃ t, step s = .next t ∧ step (s.setMem m) = .next (t.setMem m) ∧
      t.pc = if s.reg x = kk then s.pc + 4#16 else s.pc + 2#16) ∧
    (w = 0x4#4 ++ x ++ kk → ∃ t, step s = .next t ∧ step (s.setMem m) = .next (t.setMem m) ∧
      t.pc = if s.reg x = kk then s.pc + 2#16 else s.pc + 4#16) ∧
    (w = 0x5#4 ++ x ++ y ++ 0x0#4 → ∃ t, step s = .next t ∧ step (s.setMem m) = .next (t.setMem m) ∧
      t.pc = if s.reg x = s.reg y then s.pc + 4#16 else s.pc + 2#16) ∧
    (w = 0x9#4 ++ x ++ y ++ 0x0#4 → ∃ t, step s = .next t ∧ step (s.setMem m) = .next (t.setMem m) ∧
      t.pc = if s.reg x = s.reg y then s.pc + 2#16 else s.pc + 4#16)

/-- Call and return are inverse (41_control_flow.md R93): after a `CALL` at address `a` and any run of host operations that
keeps the depth above the depth before the call, a `RET` that goes back to that depth goes to `a + 2`; between the two, no
slot up to the one the call wrote changes. The general form is the spec's own inference from R86 and R87. -/
def Obligations.ReturnGoesBackPastTheCall : Prop :=
  ∀ (s t u : State) (nnn : Addr12), s.fetch = .ok (0x2#4 ++ nnn) → step s = .next t →
    RunAbove s.sp.val t u →
    (∀ k : Fin 16, k.val ≤ s.sp.val → u.slot k = t.slot k) ∧
    (u.fetch = .ok 0x00EE#16 → u.sp.val = s.sp.val + 1 →
      ∃ r, step u = .next r ∧ r.pc = s.pc + 2#16 ∧ r.sp = s.sp)

/-! ## Immediates, registers and the ALU -/

/-- `LD Vx, byte` (42_immediate.md R100). -/
def Obligations.LdByteLoadsImmediate : Prop :=
  ∀ (x : RegIdx) (kk : Byte) (s : State),
    decode (0x6#4 ++ x ++ kk) = .ok (.ldVxByte x kk) ∧
    ∃ t, exec (.ldVxByte x kk) s = .next t ∧ t.reg x = kk ∧ t.pc = s.pc ∧ SameBut [x] s t

/-- `ADD Vx, byte` (42_immediate.md R101): no flag is derived; with `x = 0xF` the flag register receives the sum, as
the pseudocode of R101 gives it. -/
def Obligations.AddByteWrapsWithoutFlag : Prop :=
  ∀ (x : RegIdx) (kk : Byte) (s : State),
    decode (0x7#4 ++ x ++ kk) = .ok (.addVxByte x kk) ∧
    ∃ t, exec (.addVxByte x kk) s = .next t ∧ (t.reg x).toNat = ((s.reg x).toNat + kk.toNat) % 256 ∧
      (x ≠ 0xF#4 → t.reg 0xF#4 = s.reg 0xF#4) ∧ t.pc = s.pc ∧ SameBut [x] s t

/-- `LD Vx, Vy` (43_alu.md R106). -/
def Obligations.LdRegisterCopies : Prop :=
  ∀ (x y : RegIdx) (s : State),
    decode (0x8#4 ++ x ++ y ++ 0x0#4) = .ok (.ldVxVy x y) ∧
    ∃ t, exec (.ldVxVy x y) s = .next t ∧ t.reg x = s.reg y ∧ t.pc = s.pc ∧ SameBut [x] s t

/-- `OR`, `AND`, `XOR Vx, Vy` (43_alu.md R107, R108, R109), bit by bit; `VF` is left as it was unless it is the
destination. -/
def Obligations.LogicOperatesBitwise : Prop :=
  ∀ (x y : RegIdx) (s : State),
    (decode (0x8#4 ++ x ++ y ++ 0x1#4) = .ok (.orVxVy x y) ∧ decode (0x8#4 ++ x ++ y ++ 0x2#4) = .ok (.andVxVy x y) ∧
      decode (0x8#4 ++ x ++ y ++ 0x3#4) = .ok (.xorVxVy x y)) ∧
    (∃ t, exec (.orVxVy x y) s = .next t ∧ t.pc = s.pc ∧ SameBut [x] s t ∧
      ∀ b < 8, (t.reg x).getLsbD b = ((s.reg x).getLsbD b || (s.reg y).getLsbD b)) ∧
    (∃ t, exec (.andVxVy x y) s = .next t ∧ t.pc = s.pc ∧ SameBut [x] s t ∧
      ∀ b < 8, (t.reg x).getLsbD b = ((s.reg x).getLsbD b && (s.reg y).getLsbD b)) ∧
    (∃ t, exec (.xorVxVy x y) s = .next t ∧ t.pc = s.pc ∧ SameBut [x] s t ∧
      ∀ b < 8, (t.reg x).getLsbD b = ((s.reg x).getLsbD b ^^ (s.reg y).getLsbD b))

/-- `ADD Vx, Vy` (43_alu.md R110): the sum modulo 256, and the carry in `VF` as the last write. -/
def Obligations.AddRegistersSetsCarry : Prop :=
  ∀ (x y : RegIdx) (s : State),
    decode (0x8#4 ++ x ++ y ++ 0x4#4) = .ok (.addVxVy x y) ∧
    ∃ t, exec (.addVxVy x y) s = .next t ∧
      t.reg 0xF#4 = (if (s.reg x).toNat + (s.reg y).toNat > 255 then 0x01#8 else 0x00#8) ∧
      (x ≠ 0xF#4 → (t.reg x).toNat = ((s.reg x).toNat + (s.reg y).toNat) % 256) ∧
      t.pc = s.pc ∧ SameBut [x, 0xF#4] s t

/-- `SUB Vx, Vy` (43_alu.md R111): the difference modulo 256, and the strict `Vx > Vy` in `VF` as the last write; equal
operands give 0x00 and flag 0. -/
def Obligations.SubSetsStrictGreater : Prop :=
  ∀ (x y : RegIdx) (s : State),
    decode (0x8#4 ++ x ++ y ++ 0x5#4) = .ok (.subVxVy x y) ∧
    ∃ t, exec (.subVxVy x y) s = .next t ∧
      t.reg 0xF#4 = (if (s.reg x).toNat > (s.reg y).toNat then 0x01#8 else 0x00#8) ∧
      (x ≠ 0xF#4 → ((t.reg x).toNat : Int) = (((s.reg x).toNat : Int) - (s.reg y).toNat) % 256) ∧
      t.pc = s.pc ∧ SameBut [x, 0xF#4] s t

/-- `SUBN Vx, Vy` (43_alu.md R113): `Vy - Vx` modulo 256 into `Vx`, and the strict `Vy > Vx` in `VF` as the last write. -/
def Obligations.SubnSetsStrictGreater : Prop :=
  ∀ (x y : RegIdx) (s : State),
    decode (0x8#4 ++ x ++ y ++ 0x7#4) = .ok (.subnVxVy x y) ∧
    ∃ t, exec (.subnVxVy x y) s = .next t ∧
      t.reg 0xF#4 = (if (s.reg y).toNat > (s.reg x).toNat then 0x01#8 else 0x00#8) ∧
      (x ≠ 0xF#4 → ((t.reg x).toNat : Int) = (((s.reg y).toNat : Int) - (s.reg x).toNat) % 256) ∧
      t.pc = s.pc ∧ SameBut [x, 0xF#4] s t

/-- `SHR Vx` (43_alu.md R112): half, rounded down, and the old bit 0 in `VF` as the last write; the field `y` is decoded to
any value and makes no difference. -/
def Obligations.ShrHalvesAndSetsBitZero : Prop :=
  ∀ (x y : RegIdx) (s : State),
    decode (0x8#4 ++ x ++ y ++ 0x6#4) = .ok (.shrVx x y) ∧
    (∀ y', exec (.shrVx x y') s = exec (.shrVx x y) s) ∧
    ∃ t, exec (.shrVx x y) s = .next t ∧ (t.reg 0xF#4).toNat = (s.reg x).toNat % 2 ∧
      (x ≠ 0xF#4 → (t.reg x).toNat = (s.reg x).toNat / 2) ∧ t.pc = s.pc ∧ SameBut [x, 0xF#4] s t

/-- `SHL Vx` (43_alu.md R114): the double modulo 256, and the old bit 7 in `VF` as the last write; the field `y` is decoded
to any value and makes no difference. -/
def Obligations.ShlDoublesAndSetsBitSeven : Prop :=
  ∀ (x y : RegIdx) (s : State),
    decode (0x8#4 ++ x ++ y ++ 0xE#4) = .ok (.shlVx x y) ∧
    (∀ y', exec (.shlVx x y') s = exec (.shlVx x y) s) ∧
    ∃ t, exec (.shlVx x y) s = .next t ∧ (t.reg 0xF#4).toNat = (s.reg x).toNat / 128 ∧
      (x ≠ 0xF#4 → (t.reg x).toNat = (s.reg x).toNat * 2 % 256) ∧ t.pc = s.pc ∧ SameBut [x, 0xF#4] s t

/-- The undefined low nibbles of the ALU family (43_alu.md R115): the cycle raises `InvalidOpcode(a, w)`, no register is
written and `PC` stays `a + 2`. -/
def Obligations.UndefinedAluNibbleFaults : Prop :=
  ∀ (s : State) (x y : RegIdx) (n : BitVec 4),
    n ∈ [0x8#4, 0x9#4, 0xA#4, 0xB#4, 0xC#4, 0xD#4, 0xF#4] → s.fetch = .ok (0x8#4 ++ x ++ y ++ n) →
    ∃ left, step s = .fault (.invalidOpcode s.pc (0x8#4 ++ x ++ y ++ n) left) ∧ left.pc = s.pc + 2#16 ∧ SameBut [] s left

/-- A word of a deferred family (45_deferred_families.md R131) raises `InvalidOpcode(a, w)`, leaves `PC` at `a + 2` and
changes nothing else, whatever its fields. That these families fault is the spec's reading, its decision D3 (log entry 3). -/
def Obligations.DeferredFamiliesFault : Prop :=
  ∀ (s : State) (top : BitVec 4) (nnn : Addr12), top ∈ [0xD#4, 0xE#4, 0xF#4] → s.fetch = .ok (top ++ nnn) →
    ∃ left, step s = .fault (.invalidOpcode s.pc (top ++ nnn) left) ∧ left.pc = s.pc + 2#16 ∧ SameBut [] s left

/-! ## Address load and random -/

/-- `LD I, addr` (44_compare_address_random.md R121). -/
def Obligations.LdILoadsAddress : Prop :=
  ∀ (nnn : Addr12) (s : State),
    decode (0xA#4 ++ nnn) = .ok (.ldIAddr nnn) ∧
    ∃ t, exec (.ldIAddr nnn) s = .next t ∧ t.i = nnn.setWidth 16 ∧ t.i.toNat ≤ 0x0FFF ∧ t.pc = s.pc ∧
      SameRegsExcept [] s t ∧ SameStack s t ∧ SameTimers s t ∧ SameMemory s t ∧ t.draws = s.draws

/-- `RND Vx, byte` (44_compare_address_random.md R122), for every byte the source may answer: `V[x]` is the drawn byte under
the mask, a subset of the mask's bits. That draws are counted in `State.draws` and answered by `Config.drawnByte` is the
model's own form of the spec's oracle (log entry 8). -/
def Obligations.RndStoresMaskedDraw : Prop :=
  ∀ (x : RegIdx) (kk : Byte) (s : State),
    decode (0xC#4 ++ x ++ kk) = .ok (.rndVxByte x kk) ∧
    ∃ t, exec (.rndVxByte x kk) s = .next t ∧ t.reg x = Config.drawnByte s.draws &&& kk ∧ t.reg x &&& ~~~kk = 0x00#8 ∧
      t.draws = s.draws + 1 ∧ t.pc = s.pc ∧
      SameRegsExcept [x] s t ∧ t.i = s.i ∧ SameStack s t ∧ SameTimers s t ∧ SameMemory s t

/-! ## Reset and the host -/

/-- The reset operation, and the state the model starts in (70_reset_and_hazards.md R185; 10_state.md R21): every value the
spec gives; the random source, whose draws the model counts in a field of its own (log entry 8), is not touched. Nothing is
said of the slots, whose values the spec leaves open. -/
def Obligations.ResetGivesTheSpecifiedValues : Prop :=
  ∀ s t : State, t = (hostOp .reset s).2 ∨ t = State.reset →
    (∀ x, t.reg x = 0x00#8) ∧ t.i = 0x0000#16 ∧ t.pc = 0x0200#16 ∧ t.sp.val = 0 ∧ t.dt = 0x00#8 ∧ t.st = 0x00#8 ∧
    (∀ a, a ≤ 0xFFF → t.readByte a = some 0x00#8) ∧ (hostOp .reset s).1 = .none ∧ (hostOp .reset s).2.draws = s.draws

/-- The first cycle after a bare reset, whenever the reset is made (70_reset_and_hazards.md R186): the spec's own inference
from 10_state.md R21, 30_encoding.md R55 and 60_exceptions.md R168. -/
def Obligations.FirstCycleAfterResetIsInvalidOpcode : Prop :=
  ∀ s : State, hostOp .cycle (hostOp .reset s).2 =
    (.status (.invalidOpcode 0x0200#16 0x0000#16), (hostOp .reset s).2.setPc 0x0202#16)

/-- The accessors of the general registers (46_host_interface.md R143). -/
def Obligations.HostRegisterAccess : Prop :=
  ∀ (s : State) (x : RegIdx) (b : Byte),
    hostOp (.getReg x) s = (.byte (s.reg x), s) ∧
    (hostOp (.setReg x b) s).1 = .none ∧ (hostOp (.setReg x b) s).2.reg x = b ∧
    (hostOp (.setReg x b) s).2.pc = s.pc ∧ SameBut [x] s (hostOp (.setReg x b) s).2

/-- The accessors of `I`, `PC`, the timers and the depth (46_host_interface.md R144, R145, R146, R148): `I` is masked to 12
bits, `PC` takes any value and faults only in the next cycle, each changes its own register only. The mask is the spec's decision D8 (log entry 10), the free `PC` its decision D9 (log
entry 11). -/
def Obligations.HostSpecialRegisterAccess : Prop :=
  ∀ (s : State) (a : Word) (b : Byte),
    (hostOp .getI s = (.word s.i, s) ∧ hostOp .getPc s = (.word s.pc, s) ∧ hostOp .getDt s = (.byte s.dt, s) ∧
      hostOp .getSt s = (.byte s.st, s) ∧ hostOp .getDepth s = (.depth s.sp.val, s) ∧ s.sp.val ≤ 16) ∧
    (∃ t, hostOp (.setI a) s = (.none, t) ∧ t.i.toNat = a.toNat % 4096 ∧ t.pc = s.pc ∧ SameRegsExcept [] s t ∧
      SameStack s t ∧ SameTimers s t ∧ SameMemory s t ∧ t.draws = s.draws) ∧
    (∃ t, hostOp (.setPc a) s = (.none, t) ∧ t.pc = a ∧ SameBut [] s t ∧
      (0xFFE < a.toNat → step t = .fault (.memoryAccessViolation (max a.toNat 0x1000) t))) ∧
    (∃ t, hostOp (.setDt b) s = (.none, t) ∧ t.dt = b ∧ t.st = s.st ∧ t.pc = s.pc ∧ SameRegsExcept [] s t ∧ t.i = s.i ∧
      SameStack s t ∧ SameMemory s t ∧ t.draws = s.draws) ∧
    (∃ t, hostOp (.setSt b) s = (.none, t) ∧ t.st = b ∧ t.dt = s.dt ∧ t.pc = s.pc ∧ SameRegsExcept [] s t ∧ t.i = s.i ∧
      SameStack s t ∧ SameMemory s t ∧ t.draws = s.draws)

/-- `mem_read` (46_host_interface.md R147, 20_memory.md R32): the bytes of a range in memory in address order; a range that
leaves memory is refused whole; a length of zero is accepted. Nothing changes. The refusal is the spec's decision D12 (log
entry 12). -/
def Obligations.HostMemoryRead : Prop :=
  ∀ (s : State) (addr n : Nat),
    (addr + n ≤ 0x1000 ∨ n = 0 → ∃ bs, hostOp (.memRead addr n) s = (.bytes bs, s) ∧ bs.length = n ∧
      ∀ k, k < n → bs[k]? = s.readByte (addr + k)) ∧
    (0x1000 < addr + n → 0 < n → hostOp (.memRead addr n) s = (.refusedMemoryAccessViolation, s))

/-- `mem_write` (46_host_interface.md R147, 20_memory.md R33): the bytes of a range in memory are written and every other
byte, register and slot is unchanged; a range that leaves memory is refused whole and writes nothing; a length of zero is
accepted and changes nothing. The refusal is the spec's decision D12 (log entry 12). -/
def Obligations.HostMemoryWrite : Prop :=
  ∀ (s : State) (addr : Nat) (bs : List Byte), Memory.wf s.mem = true →
    (addr + bs.length ≤ 0x1000 → ∃ t, hostOp (.memWrite addr bs) s = (.ok, t) ∧ Memory.wf t.mem = true ∧
      (∀ k, k < bs.length → t.readByte (addr + k) = bs[k]?) ∧
      (∀ a, a < addr ∨ addr + bs.length ≤ a → t.readByte a = s.readByte a) ∧
      t.pc = s.pc ∧ SameRegsExcept [] s t ∧ t.i = s.i ∧ SameStack s t ∧ SameTimers s t ∧ t.draws = s.draws) ∧
    (0x1000 < addr + bs.length → bs ≠ [] → hostOp (.memWrite addr bs) s = (.refusedMemoryAccessViolation, s)) ∧
    (bs = [] → hostOp (.memWrite addr bs) s = (.ok, s))

/-- `load_program` (46_host_interface.md R149): byte `k` goes to `Mem[0x200 + k]`; cells outside, `PC`, registers, stack and
timers are untouched; more than 3584 bytes are refused whole, which is the spec's decision D13 (log entry 12). -/
def Obligations.LoadProgramCopiesBytes : Prop :=
  ∀ (s : State) (bs : List Byte), Memory.wf s.mem = true →
    (bs.length ≤ 3584 → ∃ t, hostOp (.loadProgram bs) s = (.ok, t) ∧
      (∀ k, k < bs.length → t.readByte (0x200 + k) = bs[k]?) ∧
      (∀ a, a < 0x200 ∨ 0x200 + bs.length ≤ a → t.readByte a = s.readByte a) ∧
      t.pc = s.pc ∧ SameRegsExcept [] s t ∧ t.i = s.i ∧ SameStack s t ∧ SameTimers s t ∧ t.draws = s.draws) ∧
    (3584 < bs.length → hostOp (.loadProgram bs) s = (.refusedMemoryAccessViolation, s))

/-- Instruction-fetch coherence (20_memory.md R43): what the host writes at `PC` before a cycle is what that cycle fetches
and runs, with nothing done in between. -/
def Obligations.FetchSeesHostWrites : Prop :=
  ∀ (s : State) (i : Instr), Memory.wf s.mem = true → s.pc.toNat ≤ 0xFFE →
    ∃ t, hostOp (.memWrite s.pc.toNat (encodeBytes i)) s = (.ok, t) ∧ t.fetch = .ok (encode i) ∧
      step t = exec i (t.setPc (s.pc + 2#16))

/-! ## Invariants -/

/-- The state after reset meets the invariant (10_state.md R21, R22). -/
def Obligations.ResetMeetsInvariant : Prop := State.reset.Inv

/-- Every step that answers a next state keeps the invariant, and leaves `PC <= 0x10FE` (10_state.md R22, the spec's own
inference). The canonical form of memory is the model's (log entry 14). -/
def Obligations.StepKeepsInvariant : Prop :=
  ∀ s t : State, s.Inv → step s = .next t → t.Inv ∧ t.pc.toNat ≤ 0x10FE

/-- In every state reachable from reset by cycles, program load and the accessors: `SP` 0 to 16, `I <= 0x0FFF`, memory
canonical; and after a cycle that ends without a fault `PC <= 0x10FE` (10_state.md R22, the spec's own inference). The
canonical form of memory is the model's (log entry 14). -/
def Obligations.ReachableStatesMeetInvariant : Prop :=
  ∀ s : State, Reachable s →
    s.sp.val ≤ 16 ∧ s.i.toNat ≤ 0x0FFF ∧ Memory.wf s.mem = true ∧
    (∀ t, hostOp .cycle s = (.status .ok, t) → t.pc.toNat ≤ 0x10FE)

/-- Every operation of the host keeps the invariant, from every state that meets it: a cycle that ends `Ok`, a cycle that
faults (by the state the fault leaves), reset, program load, every write and every read, refused or not; and a cycle that
ends `Ok` leaves `PC <= 0x10FE` (10_state.md R22, the spec's own inference; 46_host_interface.md R140). The canonical form of
memory is the model's (log entry 14). -/
def Obligations.HostOperationsKeepInvariant : Prop :=
  ∀ (o : HostOp) (s : State), s.Inv →
    (hostOp o s).2.Inv ∧ ((hostOp o s).1 = .status .ok → (hostOp o s).2.pc.toNat ≤ 0x10FE)
end

