-- ==== Sys2Proof/Laws/Decode.lean ====
section
/-! SUPPORT. The small lemmas of the decoder and the encoder: each field of each format, each digit, and a word as the
format of its own fields. -/

namespace Sys2Proof.Laws

/-! ## Digits -/

theorem nibbleOf_hexOf (b : BitVec 4) : nibbleOf (hexOf b) = b := by revert b; decide

theorem hexOf_nibbleOf (h : Hex) : hexOf (nibbleOf h) = h := by cases h <;> decide

/-- A nibble is the digit `h` exactly when it has the value of `h`. -/
theorem hexOf_eq_iff (b : BitVec 4) (h : Hex) : hexOf b = h ↔ b = nibbleOf h := by
  constructor
  · intro hb
    rw [← hb, nibbleOf_hexOf]
  · intro hb
    rw [hb, hexOf_nibbleOf]

/-! ## Fields of the formats (30_encoding.md R51, R52) -/

@[simp] theorem topOf_formatNNN (t : BitVec 4) (nnn : Addr12) : topOf (formatNNN t nnn) = t := by
  apply BitVec.eq_of_getLsbD_eq
  intro i hi
  have h : ¬ (12 + i < 12) := by omega
  simp only [topOf, formatNNN, BitVec.getLsbD_extractLsb', BitVec.getLsbD_append, hi, h]
  simp

@[simp] theorem nnnOf_formatNNN (t : BitVec 4) (nnn : Addr12) : nnnOf (formatNNN t nnn) = nnn := by
  apply BitVec.eq_of_getLsbD_eq
  intro i hi
  have h : 0 + i < 12 := by omega
  simp only [nnnOf, formatNNN, BitVec.getLsbD_extractLsb', BitVec.getLsbD_append, hi, h]
  simp

@[simp] theorem topOf_formatXKK (t : BitVec 4) (x : RegIdx) (kk : Byte) : topOf (formatXKK t x kk) = t := by
  apply BitVec.eq_of_getLsbD_eq
  intro i hi
  have h : ¬ (12 + i < 8) := by omega
  have h' : ¬ (12 + i - 8 < 4) := by omega
  simp only [topOf, formatXKK, BitVec.getLsbD_extractLsb', BitVec.getLsbD_append, hi, h, h']
  simp only [decide_true, Bool.true_and, show 12 + i - 8 - 4 = i by omega]
  simp

@[simp] theorem xOf_formatXKK (t : BitVec 4) (x : RegIdx) (kk : Byte) : xOf (formatXKK t x kk) = x := by
  apply BitVec.eq_of_getLsbD_eq
  intro i hi
  have h : ¬ (8 + i < 8) := by omega
  simp only [xOf, formatXKK, BitVec.getLsbD_extractLsb', BitVec.getLsbD_append, hi, h]
  simp
  omega

@[simp] theorem kkOf_formatXKK (t : BitVec 4) (x : RegIdx) (kk : Byte) : kkOf (formatXKK t x kk) = kk := by
  apply BitVec.eq_of_getLsbD_eq
  intro i hi
  have h : 0 + i < 8 := by omega
  simp only [kkOf, formatXKK, BitVec.getLsbD_extractLsb', BitVec.getLsbD_append, hi, h]
  simp

@[simp] theorem topOf_formatXYN (t : BitVec 4) (x y : RegIdx) (n : BitVec 4) : topOf (formatXYN t x y n) = t := by
  apply BitVec.eq_of_getLsbD_eq
  intro i hi
  simp only [topOf, formatXYN, BitVec.getLsbD_extractLsb', BitVec.getLsbD_append]
  rcases (by omega : i = 0 ∨ i = 1 ∨ i = 2 ∨ i = 3) with rfl | rfl | rfl | rfl <;> rfl

@[simp] theorem xOf_formatXYN (t : BitVec 4) (x y : RegIdx) (n : BitVec 4) : xOf (formatXYN t x y n) = x := by
  apply BitVec.eq_of_getLsbD_eq
  intro i hi
  simp only [xOf, formatXYN, BitVec.getLsbD_extractLsb', BitVec.getLsbD_append]
  rcases (by omega : i = 0 ∨ i = 1 ∨ i = 2 ∨ i = 3) with rfl | rfl | rfl | rfl <;> rfl

@[simp] theorem yOf_formatXYN (t : BitVec 4) (x y : RegIdx) (n : BitVec 4) : yOf (formatXYN t x y n) = y := by
  apply BitVec.eq_of_getLsbD_eq
  intro i hi
  simp only [yOf, formatXYN, BitVec.getLsbD_extractLsb', BitVec.getLsbD_append]
  rcases (by omega : i = 0 ∨ i = 1 ∨ i = 2 ∨ i = 3) with rfl | rfl | rfl | rfl <;> rfl

@[simp] theorem nOf_formatXYN (t : BitVec 4) (x y : RegIdx) (n : BitVec 4) : nOf (formatXYN t x y n) = n := by
  apply BitVec.eq_of_getLsbD_eq
  intro i hi
  simp only [nOf, formatXYN, BitVec.getLsbD_extractLsb', BitVec.getLsbD_append]
  rcases (by omega : i = 0 ∨ i = 1 ∨ i = 2 ∨ i = 3) with rfl | rfl | rfl | rfl <;> rfl

/-! ## A word is the format of its fields -/

theorem formatNNN_fields (w : Word) : formatNNN (topOf w) (nnnOf w) = w := by
  apply BitVec.eq_of_getLsbD_eq
  intro i hi
  simp only [topOf, nnnOf, formatNNN, BitVec.getLsbD_extractLsb', BitVec.getLsbD_append]
  by_cases h : i < 12
  · simp [h]
  · have h2 : i - 12 < 4 := by omega
    simp [h, h2, show 12 + (i - 12) = i by omega]

theorem formatXKK_fields (w : Word) : formatXKK (topOf w) (xOf w) (kkOf w) = w := by
  apply BitVec.eq_of_getLsbD_eq
  intro i hi
  simp only [topOf, xOf, kkOf, formatXKK, BitVec.getLsbD_extractLsb', BitVec.getLsbD_append]
  by_cases h : i < 8
  · simp [h]
  · by_cases h1 : i - 8 < 4
    · simp [h, h1, show 8 + (i - 8) = i by omega]
    · have h2 : i - 8 - 4 < 4 := by omega
      simp only [h, h1, h2, decide_true, Bool.true_and, ↓reduceIte]
      rw [show 12 + (i - 8 - 4) = i by omega]

theorem formatXYN_fields (w : Word) : formatXYN (topOf w) (xOf w) (yOf w) (nOf w) = w := by
  apply BitVec.eq_of_getLsbD_eq
  intro i hi
  simp only [topOf, xOf, yOf, nOf, formatXYN, BitVec.getLsbD_extractLsb', BitVec.getLsbD_append]
  by_cases h : i < 4
  · simp [h]
  · by_cases h1 : i - 4 < 4
    · simp [h, h1, show 4 + (i - 4) = i by omega]
    · by_cases h2 : i - 4 - 4 < 4
      · simp only [h, h1, h2, decide_true, Bool.true_and, ↓reduceIte]
        rw [show 8 + (i - 4 - 4) = i by omega]
      · have h3 : i - 4 - 4 - 4 < 4 := by omega
        simp only [h, h1, h2, h3, decide_true, Bool.true_and, ↓reduceIte]
        rw [show 12 + (i - 4 - 4 - 4) = i by omega]

/-- The two bytes of a word, read big-endian, are the word (20_memory.md R34). -/
@[simp] theorem wordOfBytes_bytesOfWord (w : Word) :
    wordOfBytes (w.extractLsb' 8 8) (w.extractLsb' 0 8) = w := by
  apply BitVec.eq_of_getLsbD_eq
  intro i hi
  simp only [wordOfBytes, BitVec.getLsbD_extractLsb', BitVec.getLsbD_append]
  by_cases h : i < 8
  · simp [h]
  · have h2 : i - 8 < 8 := by omega
    simp [h, h2, show 8 + (i - 8) = i by omega]

end Sys2Proof.Laws
end

