-- ==== Sys2Proof/Laws/Memory.lean ====
section
/-! SUPPORT. Memory: what a read gives after a write, and that every memory operation keeps the canonical form. -/

namespace Sys2Proof.Machine

/-! ## The canonical form -/

/-- A memory canonical from `hi` on is canonical from any lower address on. -/
theorem Memory.wfFrom_mono {lo hi : Nat} (h : lo ≤ hi) (m : Memory) (hm : Memory.wfFrom hi m = true) :
    Memory.wfFrom lo m = true := by
  cases m with
  | nil => rfl
  | cons c rest =>
    obtain ⟨a, b⟩ := c
    simp only [Memory.wfFrom, Bool.and_eq_true, decide_eq_true_eq] at hm ⊢
    exact ⟨⟨⟨by omega, hm.1.1.2⟩, hm.1.2⟩, hm.2⟩

/-- Below the first address of a canonical memory nothing is listed. -/
theorem Memory.lookup_of_lt {lo a : Nat} (h : a < lo) (m : Memory) (hm : Memory.wfFrom lo m = true) :
    Memory.lookup m a = Memory.unlisted := by
  induction m generalizing lo with
  | nil => rfl
  | cons c rest ih =>
    obtain ⟨k, b⟩ := c
    simp only [Memory.wfFrom, Bool.and_eq_true, decide_eq_true_eq] at hm
    have hk : k ≠ a := by omega
    simp only [Memory.lookup, hk, ↓reduceIte]
    exact ih (lo := k + 1) (by omega) hm.2

/-- `put` keeps the canonical form. -/
theorem Memory.wfFrom_put {lo a : Nat} (ha : lo ≤ a) (hv : a < Config.memSize) (b : Byte) (m : Memory)
    (hm : Memory.wfFrom lo m = true) : Memory.wfFrom lo (Memory.put m a b) = true := by
  induction m generalizing lo with
  | nil =>
    by_cases hb : b = Memory.unlisted
    · simp [Memory.put, hb, Memory.wfFrom]
    · simp [Memory.put, hb, Memory.wfFrom, ha, hv]
  | cons c rest ih =>
    obtain ⟨k, d⟩ := c
    have hm' := hm
    simp only [Memory.wfFrom, Bool.and_eq_true, decide_eq_true_eq] at hm'
    obtain ⟨⟨⟨hk1, hk2⟩, hd⟩, hrest⟩ := hm'
    unfold Memory.put
    split
    · next hlt =>
      split
      · exact hm
      · next hb =>
        simp only [Memory.wfFrom, Bool.and_eq_true, decide_eq_true_eq]
        exact ⟨⟨⟨ha, hv⟩, by simpa using hb⟩, ⟨⟨by omega, hk2⟩, hd⟩, hrest⟩
    · split
      · next hge heq =>
        split
        · exact Memory.wfFrom_mono (by omega) rest hrest
        · next hb =>
          subst heq
          simp only [Memory.wfFrom, Bool.and_eq_true, decide_eq_true_eq]
          exact ⟨⟨⟨ha, hv⟩, by simpa using hb⟩, hrest⟩
      · simp only [Memory.wfFrom, Bool.and_eq_true, decide_eq_true_eq]
        exact ⟨⟨⟨hk1, hk2⟩, hd⟩, ih (by omega) hrest⟩

/-- `putAll` of a range in memory keeps the canonical form. -/
theorem Memory.wf_putAll (bs : List Byte) : ∀ (m : Memory) (a : Nat), a + bs.length ≤ Config.memSize →
    Memory.wf m = true → Memory.wf (Memory.putAll m a bs) = true := by
  induction bs with
  | nil => intro m a _ hm; exact hm
  | cons b bs ih =>
    intro m a hr hm
    simp only [List.length_cons] at hr
    exact ih _ _ (by omega) (Memory.wfFrom_put (Nat.zero_le a) (by omega) b m hm)

/-- `MemWrite` keeps the canonical form. -/
theorem memWrite_wf {m m' : Memory} {addr : Nat} {bs : List Byte} (h : memWrite m addr bs = some m')
    (hm : Memory.wf m = true) : Memory.wf m' = true := by
  unfold memWrite at h
  split at h
  · next hc =>
    cases h
    rcases hc with rfl | hr
    · exact hm
    · exact Memory.wf_putAll bs m addr hr hm
  · cases h

/-! ## Reads after writes -/

/-- A read after a write of one byte: the byte written at its address, the old byte at every other. -/
theorem Memory.lookup_put {lo : Nat} (m : Memory) (hm : Memory.wfFrom lo m = true) (a k : Nat) (b : Byte) :
    Memory.lookup (Memory.put m a b) k = if a = k then b else Memory.lookup m k := by
  induction m generalizing lo with
  | nil =>
    by_cases hb : b = Memory.unlisted
    · by_cases h : a = k <;> simp [Memory.put, hb, Memory.lookup, h]
    · simp [Memory.put, hb, Memory.lookup]
  | cons c rest ih =>
    obtain ⟨j, d⟩ := c
    simp only [Memory.wfFrom, Bool.and_eq_true, decide_eq_true_eq] at hm
    obtain ⟨⟨⟨_, _⟩, _⟩, hrest⟩ := hm
    unfold Memory.put
    split
    · next hlt =>
      split
      · next hb =>
        by_cases h : a = k
        · subst h
          have hj : j ≠ a := by omega
          simp only [↓reduceIte, Memory.lookup, hj]
          rw [Memory.lookup_of_lt (lo := j + 1) (by omega) rest hrest, hb]
        · simp [h]
      · simp [Memory.lookup]
    · split
      · next hge heq =>
        subst heq
        split
        · next hb =>
          by_cases h : a = k
          · subst h
            rw [Memory.lookup_of_lt (lo := a + 1) (by omega) rest hrest, hb]
            simp
          · simp [Memory.lookup, h]
        · by_cases h : a = k <;> simp [Memory.lookup, h]
      · next hge hne =>
        simp only [Memory.lookup]
        by_cases h : j = k
        · have : a ≠ k := by omega
          simp [h, this]
        · simp only [h, ↓reduceIte]
          exact ih hrest

/-- A read outside the range of a `putAll` gives the old byte. -/
theorem Memory.lookup_putAll_outside (bs : List Byte) : ∀ (m : Memory) (a k : Nat), a + bs.length ≤ Config.memSize →
    Memory.wf m = true → (k < a ∨ a + bs.length ≤ k) →
    Memory.lookup (Memory.putAll m a bs) k = Memory.lookup m k := by
  induction bs with
  | nil => intro m a k _ _ _; rfl
  | cons b bs ih =>
    intro m a k hr hm hk
    simp only [List.length_cons] at hr hk
    have hw : Memory.wf (Memory.put m a b) = true := Memory.wfFrom_put (Nat.zero_le a) (by omega) b m hm
    rw [Memory.putAll, ih _ _ _ (by omega) hw (by omega), Memory.lookup_put (lo := 0) m hm]
    simp [show a ≠ k by omega]

/-- A read inside the range of a `putAll` gives the byte written there. -/
theorem Memory.lookup_putAll_inside (bs : List Byte) : ∀ (m : Memory) (a k : Nat), a + bs.length ≤ Config.memSize →
    Memory.wf m = true → (hk : k < bs.length) → Memory.lookup (Memory.putAll m a bs) (a + k) = bs[k] := by
  induction bs with
  | nil => intro m a k _ _ hk; cases hk
  | cons b bs ih =>
    intro m a k hr hm hk
    simp only [List.length_cons] at hr hk
    have hw : Memory.wf (Memory.put m a b) = true := Memory.wfFrom_put (Nat.zero_le a) (by omega) b m hm
    cases k with
    | zero =>
      rw [Memory.putAll, Memory.lookup_putAll_outside _ _ _ _ (by omega) hw (by omega),
        Memory.lookup_put (lo := 0) m hm]
      simp
    | succ k =>
      have := ih (Memory.put m a b) (a + 1) k (by omega) hw (by omega)
      rw [Memory.putAll, show a + (k + 1) = a + 1 + k by omega, this]
      rfl

/-- `MemRead` of a range in memory gives its bytes in address order (20_memory.md R32). -/
theorem memRead_ok (m : Memory) : ∀ (n addr : Nat), addr + n ≤ Config.memSize →
    memRead m addr n = .ok ((List.range' addr n).map (Memory.lookup m)) := by
  intro n
  induction n with
  | zero => intro addr _; rfl
  | succ n ih =>
    intro addr h
    have ha : addr < 4096 := by simp only [Config.memSize] at h; omega
    simp [memRead, addrValid, ha, ih (addr + 1) (by omega), List.range'_succ]

/-- `MemRead` of a range that leaves memory stops at the first invalid address (20_memory.md R32). -/
theorem memRead_error (m : Memory) : ∀ (n addr : Nat), 0 < n → Config.memSize < addr + n →
    memRead m addr n = .error (max addr Config.memSize) := by
  intro n
  induction n with
  | zero => intro addr h _; omega
  | succ n ih =>
    intro addr _ h
    by_cases ha : addr < 4096
    · have h' : Config.memSize < addr + 1 + n := by omega
      have hn : 0 < n := by simp only [Config.memSize] at h; omega
      rw [memRead]
      simp only [addrValid, ha, decide_true, ↓reduceIte, ih (addr + 1) hn h']
      simp only [Config.memSize]
      congr 1
      omega
    · simp only [memRead, addrValid, ha, decide_false, Bool.false_eq_true, ↓reduceIte, Config.memSize]
      congr 1
      omega

end Sys2Proof.Machine
end

