-- ==== Sys2Proof/Laws/State.lean ====
section
/-! SUPPORT. One lemma per field per update of the state, so that no later proof unfolds a record update. -/

namespace Sys2Proof.Machine

variable (s : State)

/-! ### `setReg`: a general register is written (10_state.md R11) -/

@[simp] theorem State.i_setReg (x : RegIdx) (b : Byte) : (s.setReg x b).i = s.i := rfl
@[simp] theorem State.pc_setReg (x : RegIdx) (b : Byte) : (s.setReg x b).pc = s.pc := rfl
@[simp] theorem State.slots_setReg (x : RegIdx) (b : Byte) : (s.setReg x b).slots = s.slots := rfl
@[simp] theorem State.sp_setReg (x : RegIdx) (b : Byte) : (s.setReg x b).sp = s.sp := rfl
@[simp] theorem State.dt_setReg (x : RegIdx) (b : Byte) : (s.setReg x b).dt = s.dt := rfl
@[simp] theorem State.st_setReg (x : RegIdx) (b : Byte) : (s.setReg x b).st = s.st := rfl
@[simp] theorem State.mem_setReg (x : RegIdx) (b : Byte) : (s.setReg x b).mem = s.mem := rfl
@[simp] theorem State.draws_setReg (x : RegIdx) (b : Byte) : (s.setReg x b).draws = s.draws := rfl
@[simp] theorem State.slot_setReg (x : RegIdx) (b : Byte) (k : Fin 16) : (s.setReg x b).slot k = s.slot k := rfl
@[simp] theorem State.readByte_setReg (x : RegIdx) (b : Byte) (k : Nat) : (s.setReg x b).readByte k = s.readByte k := rfl

/-- What a register reads after a write of a register (10_state.md R11). -/
@[simp] theorem State.reg_setReg (x : RegIdx) (b : Byte) (z : RegIdx) :
    (s.setReg x b).reg z = if z = x then b else s.reg z := by
  unfold State.reg State.setReg
  rw [Vector.getElem_set]
  by_cases h : z = x
  · simp [h]
  · have h' : ¬ x.toNat = z.toNat := fun e => h (BitVec.eq_of_toNat_eq e.symm)
    simp [h, h']

/-! ### `setPc`: `PC` is written (10_state.md R14) -/

@[simp] theorem State.v_setPc (a : Word) : (s.setPc a).v = s.v := rfl
@[simp] theorem State.i_setPc (a : Word) : (s.setPc a).i = s.i := rfl
@[simp] theorem State.pc_setPc (a : Word) : (s.setPc a).pc = a := rfl
@[simp] theorem State.slots_setPc (a : Word) : (s.setPc a).slots = s.slots := rfl
@[simp] theorem State.sp_setPc (a : Word) : (s.setPc a).sp = s.sp := rfl
@[simp] theorem State.dt_setPc (a : Word) : (s.setPc a).dt = s.dt := rfl
@[simp] theorem State.st_setPc (a : Word) : (s.setPc a).st = s.st := rfl
@[simp] theorem State.mem_setPc (a : Word) : (s.setPc a).mem = s.mem := rfl
@[simp] theorem State.draws_setPc (a : Word) : (s.setPc a).draws = s.draws := rfl
@[simp] theorem State.reg_setPc (a : Word) (z : RegIdx) : (s.setPc a).reg z = s.reg z := rfl
@[simp] theorem State.slot_setPc (a : Word) (k : Fin 16) : (s.setPc a).slot k = s.slot k := rfl
@[simp] theorem State.readByte_setPc (a : Word) (k : Nat) : (s.setPc a).readByte k = s.readByte k := rfl

/-! ### `setI`: `I` is written, masked (10_state.md R13) -/

@[simp] theorem State.v_setI (a : Word) : (s.setI a).v = s.v := rfl
@[simp] theorem State.i_setI (a : Word) : (s.setI a).i = a &&& 0x0FFF#16 := rfl
@[simp] theorem State.pc_setI (a : Word) : (s.setI a).pc = s.pc := rfl
@[simp] theorem State.slots_setI (a : Word) : (s.setI a).slots = s.slots := rfl
@[simp] theorem State.sp_setI (a : Word) : (s.setI a).sp = s.sp := rfl
@[simp] theorem State.dt_setI (a : Word) : (s.setI a).dt = s.dt := rfl
@[simp] theorem State.st_setI (a : Word) : (s.setI a).st = s.st := rfl
@[simp] theorem State.mem_setI (a : Word) : (s.setI a).mem = s.mem := rfl
@[simp] theorem State.draws_setI (a : Word) : (s.setI a).draws = s.draws := rfl
@[simp] theorem State.reg_setI (a : Word) (z : RegIdx) : (s.setI a).reg z = s.reg z := rfl
@[simp] theorem State.slot_setI (a : Word) (k : Fin 16) : (s.setI a).slot k = s.slot k := rfl
@[simp] theorem State.readByte_setI (a : Word) (k : Nat) : (s.setI a).readByte k = s.readByte k := rfl

/-! ### `setDt`: `DT` is written (10_state.md R18) -/

@[simp] theorem State.v_setDt (b : Byte) : (s.setDt b).v = s.v := rfl
@[simp] theorem State.i_setDt (b : Byte) : (s.setDt b).i = s.i := rfl
@[simp] theorem State.pc_setDt (b : Byte) : (s.setDt b).pc = s.pc := rfl
@[simp] theorem State.slots_setDt (b : Byte) : (s.setDt b).slots = s.slots := rfl
@[simp] theorem State.sp_setDt (b : Byte) : (s.setDt b).sp = s.sp := rfl
@[simp] theorem State.dt_setDt (b : Byte) : (s.setDt b).dt = b := rfl
@[simp] theorem State.st_setDt (b : Byte) : (s.setDt b).st = s.st := rfl
@[simp] theorem State.mem_setDt (b : Byte) : (s.setDt b).mem = s.mem := rfl
@[simp] theorem State.draws_setDt (b : Byte) : (s.setDt b).draws = s.draws := rfl
@[simp] theorem State.reg_setDt (b : Byte) (z : RegIdx) : (s.setDt b).reg z = s.reg z := rfl
@[simp] theorem State.slot_setDt (b : Byte) (k : Fin 16) : (s.setDt b).slot k = s.slot k := rfl
@[simp] theorem State.readByte_setDt (b : Byte) (k : Nat) : (s.setDt b).readByte k = s.readByte k := rfl

/-! ### `setSt`: `ST` is written (10_state.md R18) -/

@[simp] theorem State.v_setSt (b : Byte) : (s.setSt b).v = s.v := rfl
@[simp] theorem State.i_setSt (b : Byte) : (s.setSt b).i = s.i := rfl
@[simp] theorem State.pc_setSt (b : Byte) : (s.setSt b).pc = s.pc := rfl
@[simp] theorem State.slots_setSt (b : Byte) : (s.setSt b).slots = s.slots := rfl
@[simp] theorem State.sp_setSt (b : Byte) : (s.setSt b).sp = s.sp := rfl
@[simp] theorem State.dt_setSt (b : Byte) : (s.setSt b).dt = s.dt := rfl
@[simp] theorem State.st_setSt (b : Byte) : (s.setSt b).st = b := rfl
@[simp] theorem State.mem_setSt (b : Byte) : (s.setSt b).mem = s.mem := rfl
@[simp] theorem State.draws_setSt (b : Byte) : (s.setSt b).draws = s.draws := rfl
@[simp] theorem State.reg_setSt (b : Byte) (z : RegIdx) : (s.setSt b).reg z = s.reg z := rfl
@[simp] theorem State.slot_setSt (b : Byte) (k : Fin 16) : (s.setSt b).slot k = s.slot k := rfl
@[simp] theorem State.readByte_setSt (b : Byte) (k : Nat) : (s.setSt b).readByte k = s.readByte k := rfl

/-! ### `setMem`: memory is replaced (20_memory.md R33) -/

@[simp] theorem State.v_setMem (m : Memory) : (s.setMem m).v = s.v := rfl
@[simp] theorem State.i_setMem (m : Memory) : (s.setMem m).i = s.i := rfl
@[simp] theorem State.pc_setMem (m : Memory) : (s.setMem m).pc = s.pc := rfl
@[simp] theorem State.slots_setMem (m : Memory) : (s.setMem m).slots = s.slots := rfl
@[simp] theorem State.sp_setMem (m : Memory) : (s.setMem m).sp = s.sp := rfl
@[simp] theorem State.dt_setMem (m : Memory) : (s.setMem m).dt = s.dt := rfl
@[simp] theorem State.st_setMem (m : Memory) : (s.setMem m).st = s.st := rfl
@[simp] theorem State.mem_setMem (m : Memory) : (s.setMem m).mem = m := rfl
@[simp] theorem State.draws_setMem (m : Memory) : (s.setMem m).draws = s.draws := rfl
@[simp] theorem State.reg_setMem (m : Memory) (z : RegIdx) : (s.setMem m).reg z = s.reg z := rfl
@[simp] theorem State.slot_setMem (m : Memory) (k : Fin 16) : (s.setMem m).slot k = s.slot k := rfl

/-! ### `consumeDraw`: a draw is made (44_compare_address_random.md R123) -/

@[simp] theorem State.v_consumeDraw : (s.consumeDraw).v = s.v := rfl
@[simp] theorem State.i_consumeDraw : (s.consumeDraw).i = s.i := rfl
@[simp] theorem State.pc_consumeDraw : (s.consumeDraw).pc = s.pc := rfl
@[simp] theorem State.slots_consumeDraw : (s.consumeDraw).slots = s.slots := rfl
@[simp] theorem State.sp_consumeDraw : (s.consumeDraw).sp = s.sp := rfl
@[simp] theorem State.dt_consumeDraw : (s.consumeDraw).dt = s.dt := rfl
@[simp] theorem State.st_consumeDraw : (s.consumeDraw).st = s.st := rfl
@[simp] theorem State.mem_consumeDraw : (s.consumeDraw).mem = s.mem := rfl
@[simp] theorem State.draws_consumeDraw : (s.consumeDraw).draws = s.draws + 1 := rfl
@[simp] theorem State.reg_consumeDraw (z : RegIdx) : (s.consumeDraw).reg z = s.reg z := rfl
@[simp] theorem State.slot_consumeDraw (k : Fin 16) : (s.consumeDraw).slot k = s.slot k := rfl
@[simp] theorem State.readByte_consumeDraw (k : Nat) : (s.consumeDraw).readByte k = s.readByte k := rfl

/-! ### `advance`: `PC` is advanced past a word (40_cycle_decode.md R72) -/

@[simp] theorem State.v_advance : (s.advance).v = s.v := rfl
@[simp] theorem State.i_advance : (s.advance).i = s.i := rfl
@[simp] theorem State.pc_advance : (s.advance).pc = s.pc + 2#16 := rfl
@[simp] theorem State.slots_advance : (s.advance).slots = s.slots := rfl
@[simp] theorem State.sp_advance : (s.advance).sp = s.sp := rfl
@[simp] theorem State.dt_advance : (s.advance).dt = s.dt := rfl
@[simp] theorem State.st_advance : (s.advance).st = s.st := rfl
@[simp] theorem State.mem_advance : (s.advance).mem = s.mem := rfl
@[simp] theorem State.draws_advance : (s.advance).draws = s.draws := rfl
@[simp] theorem State.reg_advance (z : RegIdx) : (s.advance).reg z = s.reg z := rfl
@[simp] theorem State.slot_advance (k : Fin 16) : (s.advance).slot k = s.slot k := rfl
@[simp] theorem State.readByte_advance (k : Nat) : (s.advance).readByte k = s.readByte k := rfl

/-! ### Registers as a whole -/

/-- Two register files that read the same at every index are the same. -/
theorem State.v_eq_of_reg_eq (s t : State) (h : ∀ x, s.reg x = t.reg x) : s.v = t.v := by
  apply Vector.ext
  intro k hk
  have := h (BitVec.ofNat 4 k)
  have hk' : (BitVec.ofNat 4 k).toNat = k := by simp; omega
  simpa [State.reg, hk'] using this

/-! ### Reset (10_state.md R21) -/

@[simp] theorem State.reg_reset (x : RegIdx) : State.reset.reg x = 0x00#8 := by
  simp [State.reg, State.reset]

@[simp] theorem State.readByte_reset (a : Nat) (h : a < 4096) : State.reset.readByte a = some 0x00#8 := by
  simp [State.readByte, State.reset, addrValid, Memory.lookup, Memory.unlisted, h]

end Sys2Proof.Machine
end

