-- ==== Sys2Proof/Laws/Ops.lean ====
section
/-! SUPPORT. For each shared operation of the machine, what it can do, said once: the fetch, push and pop, the ways an
instruction ends, and the step over them. -/

namespace Sys2Proof.Machine

/-! ## Bytes of memory and the fetch -/

theorem State.readByte_valid (s : State) {a : Nat} (h : a < 4096) :
    s.readByte a = some (Memory.lookup s.mem a) := by
  simp [State.readByte, addrValid, h]

theorem State.readByte_invalid (s : State) {a : Nat} (h : 4096 ≤ a) : s.readByte a = none := by
  simp [State.readByte, addrValid, show ¬ a < 4096 by omega]

/-- Below 0xFFF the fetch reads the two bytes at `PC`, big-endian (40_cycle_decode.md R71). -/
theorem State.fetch_ok (s : State) (h : s.pc.toNat ≤ 0xFFE) :
    s.fetch = .ok (wordOfBytes (Memory.lookup s.mem s.pc.toNat) (Memory.lookup s.mem (s.pc.toNat + 1))) := by
  simp [State.fetch, State.readByte_valid s (show s.pc.toNat < 4096 by omega),
    State.readByte_valid s (show s.pc.toNat + 1 < 4096 by omega)]

/-- At 0xFFF the second byte is the first invalid address. -/
theorem State.fetch_last (s : State) (h : s.pc.toNat = 0xFFF) : s.fetch = .error 0x1000 := by
  simp [State.fetch, State.readByte, addrValid, h]

/-- From 0x1000 on the first byte is invalid already. -/
theorem State.fetch_outside (s : State) (h : 0x1000 ≤ s.pc.toNat) : s.fetch = .error s.pc.toNat := by
  simp [State.fetch, State.readByte_invalid s h]

/-- A fetch that answers a word was made at an address up to 0xFFE. -/
theorem State.pc_le_of_fetch_ok {s : State} {w : Word} (h : s.fetch = .ok w) : s.pc.toNat ≤ 0xFFE := by
  by_contra hc
  by_cases he : s.pc.toNat = 0xFFF
  · rw [State.fetch_last s he] at h; cases h
  · rw [State.fetch_outside s (by omega)] at h; cases h

/-! ## The call stack -/

theorem State.push_eq (s : State) (w : Word) (h : s.sp.val < 16) :
    s.push w = some { s with slots := s.slots.set s.sp.val w h, sp := ⟨s.sp.val + 1, Nat.succ_lt_succ h⟩ } := by
  simp [State.push, h]

theorem State.push_full (s : State) (w : Word) (h : s.sp.val = 16) : s.push w = none := by
  simp [State.push, h]

theorem State.pop_eq (s : State) (h : 0 < s.sp.val) :
    s.pop = some (s.slot ⟨s.sp.val - 1, by omega⟩, { s with sp := ⟨s.sp.val - 1, by omega⟩ }) := by
  simp [State.pop, h]

theorem State.pop_empty (s : State) (h : s.sp.val = 0) : s.pop = none := by
  simp [State.pop, h]

/-! ## How an instruction ends -/

/-- A skip answers a next state, with `PC` advanced once more exactly when the condition holds. -/
theorem skipIf_eq (c : Bool) (s : State) :
    skipIf c s = .next (s.setPc (if c then s.pc + 2#16 else s.pc)) := by
  cases c <;> rfl

/-- Every register after `writeResultThenFlag`: the flag in `VF`, whatever `x` is; the result in any other `x`. -/
theorem writeResultThenFlag_eq (x : RegIdx) (r f : Byte) (s : State) :
    ∃ t, writeResultThenFlag x r f s = .next t ∧
      (∀ z, t.reg z = if z = Config.flagReg then f else if z = x then r else s.reg z) ∧
      t.pc = s.pc ∧ t.i = s.i ∧ t.sp = s.sp ∧ t.slots = s.slots ∧ t.dt = s.dt ∧ t.st = s.st ∧ t.mem = s.mem ∧
      t.draws = s.draws :=
  ⟨_, rfl, fun z => by simp, rfl, rfl, rfl, rfl, rfl, rfl, rfl, rfl⟩

/-! ## The step -/

/-- A step whose fetch fails is the fetch fault. -/
theorem step_of_fetch_error {s : State} {a : Nat} (h : s.fetch = .error a) :
    step s = .fault (.memoryAccessViolation a s) := by
  simp [step, h, State.raiseFetch]

/-- A step whose fetch answers a word classifies and runs that word on the advanced state. -/
theorem step_of_fetch_ok {s : State} {w : Word} (h : s.fetch = .ok w) : step s = execWord w s.advance := by
  simp [step, h]

/-- The counting of `PC` back from the advanced state is the address of the fetch (60_exceptions.md R168). -/
@[simp] theorem State.pc_advance_sub (s : State) : s.advance.pc - 2#16 = s.pc := by
  simp

/-- A step that answers a next state ran one decoded instruction on the advanced state. -/
theorem step_next_inv {s t : State} (h : step s = .next t) :
    ∃ w i, s.fetch = .ok w ∧ decode w = .ok i ∧ exec i s.advance = .next t := by
  unfold step at h
  split at h
  · simp [State.raiseFetch] at h
  · next w hw =>
    unfold execWord at h
    split at h
    · simp [State.raise] at h
    · next i hi => exact ⟨w, i, hw, hi, h⟩

end Sys2Proof.Machine
end

