-- ==== Sys2Proof/Laws/Host.lean ====
section
/-! SUPPORT. What the host's operations can do, said once: the result of a cycle by the outcome of the step, and the writes of
memory that may be refused. -/

namespace Sys2Proof.Machine

/-- A step that answers a next state is a cycle that ends `Ok` in it (40_cycle_decode.md R78). -/
theorem cycle_of_step_next {s t : State} (h : step s = .next t) : cycle s = (.ok, t) := by
  simp [cycle, h]

/-- A step that faults is a cycle that ends in the report and the state left (60_exceptions.md R168). -/
theorem cycle_of_step_fault {s : State} {f : Fault} (h : step s = .fault f) : cycle s = (f.status, f.left) := by
  simp [cycle, h]

/-- A cycle whose fetch fails leaves the state as it was (40_cycle_decode.md R71). -/
theorem cycle_of_fetch_error {s : State} {a : Nat} (h : s.fetch = .error a) : cycle s = (.memoryAccessViolation a, s) :=
  cycle_of_step_fault (step_of_fetch_error h)

/-- A cycle whose word decodes to no instruction leaves the advance alone (40_cycle_decode.md R75). -/
theorem cycle_of_invalid {s : State} {w : Word} {b : BadWord} (h : s.fetch = .ok w) (hd : decode w = .error b) :
    cycle s = (.invalidOpcode s.pc w, s.advance) := by
  have hs : step s = .fault (.invalidOpcode s.pc w s.advance) := by
    rw [step_of_fetch_ok h]
    simp [execWord, hd, State.raise]
  exact cycle_of_step_fault hs

/-- A host write of memory is accepted whole or refused whole, and touches memory alone (46_host_interface.md R147). -/
theorem hostMemWrite_eq (s : State) (addr : Nat) (bs : List Byte) :
    (hostMemWrite s addr bs = none ∧ memWrite s.mem addr bs = none) ∨
    (∃ m, memWrite s.mem addr bs = some m ∧ hostMemWrite s addr bs = some (s.setMem m)) := by
  unfold hostMemWrite
  cases h : memWrite s.mem addr bs with
  | none => exact .inl ⟨rfl, rfl⟩
  | some m => exact .inr ⟨m, rfl, rfl⟩

/-- The two ways a write is answered: refused with the state as it was, or `Ok` with the state written. -/
theorem writeReply_eq (s : State) (after : Option State) :
    (after = none ∧ writeReply s after = (.refusedMemoryAccessViolation, s)) ∨
    (∃ t, after = some t ∧ writeReply s after = (.ok, t)) := by
  cases after with
  | none => exact .inl ⟨rfl, rfl⟩
  | some t => exact .inr ⟨t, rfl, rfl⟩

end Sys2Proof.Machine
end

