-- ==== Sys2Proof/Laws/PerInstr.lean ====
section
/-! SUPPORT. A statement about every instruction as syntax, one lemma per constructor: the word of an instruction lies in
the instruction's own row of the table of 30_encoding.md R63. -/

namespace Sys2Proof.Laws.EncodedInRow

/-- `encode i` matches the mask and match columns of `i`'s row (30_encoding.md R63). -/
def Statement (i : Instr) : Prop := i.row.holds (encode i)

/-- A word of format `NNN` under the mask of the top nibble. -/
theorem formatNNN_mask (t : BitVec 4) (nnn : Addr12) : formatNNN t nnn &&& 0xF000#16 = formatNNN t 0#12 := by
  apply BitVec.eq_of_getLsbD_eq
  intro i hi
  simp only [formatNNN, BitVec.getLsbD_and, BitVec.getLsbD_append]
  by_cases h : i < 12
  · simp only [h, ↓reduceIte]
    have : (0xF000#16).getLsbD i = false := by revert i; decide
    simp [this]
  · simp only [h, ↓reduceIte]
    have : (0xF000#16).getLsbD i = true := by revert i; decide
    simp [this]

/-- A word of format `XKK` under the mask of the top nibble. -/
theorem formatXKK_mask (t : BitVec 4) (x : RegIdx) (kk : Byte) :
    formatXKK t x kk &&& 0xF000#16 = formatNNN t 0#12 := by
  rw [← formatNNN_fields (formatXKK t x kk), topOf_formatXKK, formatNNN_mask]

/-- A word of format `XYN` under the mask of the top and the low nibble. -/
theorem formatXYN_mask (t : BitVec 4) (x y : RegIdx) (n : BitVec 4) :
    formatXYN t x y n &&& 0xF00F#16 = formatXYN t 0#4 0#4 n := by
  apply BitVec.eq_of_getLsbD_eq
  intro i hi
  simp only [formatXYN, BitVec.getLsbD_and, BitVec.getLsbD_append]
  by_cases h : i < 4
  · simp only [h, ↓reduceIte]
    have : (0xF00F#16).getLsbD i = true := by revert i; decide
    simp [this]
  · simp only [h, ↓reduceIte]
    by_cases h2 : i < 12
    · have : (0xF00F#16).getLsbD i = false := by revert i; decide
      simp only [this, Bool.and_false]
      by_cases h3 : i - 4 < 4
      · simp [h3]
      · simp [h3, show i - 4 - 4 < 4 by omega]
    · have : (0xF00F#16).getLsbD i = true := by revert i; decide
      simp [this, show ¬ (i - 4 < 4) by omega, show ¬ (i - 4 - 4 < 4) by omega]

theorem ret : Statement .ret := by rfl
theorem jpAddr (nnn : Addr12) : Statement (.jpAddr nnn) := formatNNN_mask 0x1#4 nnn
theorem callAddr (nnn : Addr12) : Statement (.callAddr nnn) := formatNNN_mask 0x2#4 nnn
theorem seVxByte (x : RegIdx) (kk : Byte) : Statement (.seVxByte x kk) := formatXKK_mask 0x3#4 x kk
theorem sneVxByte (x : RegIdx) (kk : Byte) : Statement (.sneVxByte x kk) := formatXKK_mask 0x4#4 x kk
theorem seVxVy (x y : RegIdx) : Statement (.seVxVy x y) := formatXYN_mask 0x5#4 x y 0x0#4
theorem ldVxByte (x : RegIdx) (kk : Byte) : Statement (.ldVxByte x kk) := formatXKK_mask 0x6#4 x kk
theorem addVxByte (x : RegIdx) (kk : Byte) : Statement (.addVxByte x kk) := formatXKK_mask 0x7#4 x kk
theorem ldVxVy (x y : RegIdx) : Statement (.ldVxVy x y) := formatXYN_mask 0x8#4 x y 0x0#4
theorem orVxVy (x y : RegIdx) : Statement (.orVxVy x y) := formatXYN_mask 0x8#4 x y 0x1#4
theorem andVxVy (x y : RegIdx) : Statement (.andVxVy x y) := formatXYN_mask 0x8#4 x y 0x2#4
theorem xorVxVy (x y : RegIdx) : Statement (.xorVxVy x y) := formatXYN_mask 0x8#4 x y 0x3#4
theorem addVxVy (x y : RegIdx) : Statement (.addVxVy x y) := formatXYN_mask 0x8#4 x y 0x4#4
theorem subVxVy (x y : RegIdx) : Statement (.subVxVy x y) := formatXYN_mask 0x8#4 x y 0x5#4
theorem shrVx (x y : RegIdx) : Statement (.shrVx x y) := formatXYN_mask 0x8#4 x y 0x6#4
theorem subnVxVy (x y : RegIdx) : Statement (.subnVxVy x y) := formatXYN_mask 0x8#4 x y 0x7#4
theorem shlVx (x y : RegIdx) : Statement (.shlVx x y) := formatXYN_mask 0x8#4 x y 0xE#4
theorem sneVxVy (x y : RegIdx) : Statement (.sneVxVy x y) := formatXYN_mask 0x9#4 x y 0x0#4
theorem ldIAddr (nnn : Addr12) : Statement (.ldIAddr nnn) := formatNNN_mask 0xA#4 nnn
theorem jpV0Addr (nnn : Addr12) : Statement (.jpV0Addr nnn) := formatNNN_mask 0xB#4 nnn
theorem rndVxByte (x : RegIdx) (kk : Byte) : Statement (.rndVxByte x kk) := formatXKK_mask 0xC#4 x kk

end Sys2Proof.Laws.EncodedInRow
end

