-- ==== Sys2Proof/Tests/Slice0.lean ====
section
/-! SUPPORT. The model's own tests. Expected results come from the spec: the words are written out from 30_encoding.md R63, the
outcomes are the vectors of 95_test_vectors.md (named in each comment). After them, a witness for the hypotheses of each
statement of Certificates/Slice0/Obligations.lean, at the boundary values. -/

namespace Sys2Proof.Tests

open Sys2Proof.Machine

/-! ## Helpers -/

/-- The outcome is a next state with a property. -/
def okWith (o : Host.Outcome State Fault Refusal) (p : State → Bool) : Bool :=
  match o with
  | .next t => p t
  | .fault _ => false
  | .refused _ => false

/-- The outcome is a fault with this report that leaves this `PC`. -/
def faultWith (o : Host.Outcome State Fault Refusal) (report : Status) (pc : Word) : Bool :=
  match o with
  | .next _ => false
  | .fault f => f.status == report && f.left.pc == pc
  | .refused _ => false

/-- The state of the ALU vectors: reset, `V[x] = a`, `V[y] = b`, `VF = f` unless `x` or `y` is 15, and the word at 0x200. -/
def withRegs (w : Word) (x : RegIdx) (a : Byte) (y : RegIdx) (b : Byte) (f : Byte) : State :=
  (((State.reset.setReg 0xF#4 f).setReg y b).setReg x a).placeWord w

/-- Reset with `PC` and a word there. -/
def atPc (pc : Word) (w : Word) : State := (State.reset.setPc pc).placeWord w

/-- Reset with a stack of `n` return addresses `a`, `PC`, and a word there. -/
def withStack (n : Fin 17) (a pc w : Word) : State :=
  { (State.reset.setPc pc) with sp := n, slots := Vector.replicate 16 a }.placeWord w

/-! ## Ill-formed words: each check of WellFormed.lean refuses one (30_encoding.md R58) -/

theorem test_wf_family0 : Word.family0Ok 0x0000#16 = false ∧ Word.wellFormed 0x01EE#16 = false := by decide
theorem test_wf_family5 : Word.family5Ok 0x5121#16 = false ∧ Word.wellFormed 0x512F#16 = false := by decide
theorem test_wf_family8 : Word.family8Ok 0x8128#16 = false ∧ Word.wellFormed 0x812D#16 = false ∧
    Word.wellFormed 0x812F#16 = false ∧ Word.wellFormed 0x812E#16 = true := by decide
theorem test_wf_family9 : Word.family9Ok 0x9121#16 = false ∧ Word.wellFormed 0x9121#16 = false := by decide
theorem test_wf_deferred : Word.notDeferred 0xD123#16 = false ∧ Word.wellFormed 0xE19E#16 = false ∧
    Word.wellFormed 0xFFFF#16 = false ∧ Word.wellFormed 0xC123#16 = true := by decide
theorem test_wf_assembled : (Instr.shrVx 1#4 2#4).asAssembled = false ∧ (Instr.shlVx 1#4 2#4).asAssembled = false ∧
    (Instr.shrVx 1#4 0#4).asAssembled = true := by decide

/-! ## Decoding: every constructor by a word written out from 30_encoding.md R63 -/

theorem test_decode_flow : decode 0b0000000011101110#16 = .ok .ret ∧ decode 0b0001001001001110#16 = .ok (.jpAddr 0x24E#12) ∧
    decode 0b0010101010111100#16 = .ok (.callAddr 0xABC#12) ∧ decode 0b1011101010111100#16 = .ok (.jpV0Addr 0xABC#12) := by
  decide
theorem test_decode_skips : decode 0b0011001100101010#16 = .ok (.seVxByte 3#4 0x2A#8) ∧
    decode 0b0100001100000000#16 = .ok (.sneVxByte 3#4 0x00#8) ∧ decode 0b0101000100100000#16 = .ok (.seVxVy 1#4 2#4) ∧
    decode 0b1001101011110000#16 = .ok (.sneVxVy 0xA#4 0xF#4) := by decide
theorem test_decode_immediates : decode 0b0110101010001111#16 = .ok (.ldVxByte 0xA#4 0x8F#8) ∧
    decode 0b0111000100100000#16 = .ok (.addVxByte 1#4 0x20#8) ∧ decode 0b1010000100100011#16 = .ok (.ldIAddr 0x123#12) ∧
    decode 0b1100001100001111#16 = .ok (.rndVxByte 3#4 0x0F#8) := by decide
theorem test_decode_alu : decode 0b1000001000000000#16 = .ok (.ldVxVy 2#4 0#4) ∧
    decode 0b1000000100100001#16 = .ok (.orVxVy 1#4 2#4) ∧ decode 0b1000000100100010#16 = .ok (.andVxVy 1#4 2#4) ∧
    decode 0b1000000100100011#16 = .ok (.xorVxVy 1#4 2#4) ∧ decode 0b1000000100100100#16 = .ok (.addVxVy 1#4 2#4) := by decide
theorem test_decode_alu2 : decode 0b1000000100100101#16 = .ok (.subVxVy 1#4 2#4) ∧
    decode 0b1000000100100110#16 = .ok (.shrVx 1#4 2#4) ∧ decode 0b1000000100100111#16 = .ok (.subnVxVy 1#4 2#4) ∧
    decode 0b1000101010101110#16 = .ok (.shlVx 0xA#4 0xA#4) := by decide
/-- Vectors X1 to X19, by reason. -/
theorem test_decode_invalid : decode 0x0000#16 = .error .family0 ∧ decode 0x00E0#16 = .error .family0 ∧
    decode 0x0EEE#16 = .error .family0 ∧ decode 0x5121#16 = .error .skipNibble ∧ decode 0x9121#16 = .error .skipNibble ∧
    decode 0x8128#16 = .error .aluNibble ∧ decode 0x812F#16 = .error .aluNibble ∧ decode 0xD123#16 = .error .deferred ∧
    decode 0xE19E#16 = .error .deferred ∧ decode 0xF107#16 = .error .deferred := by decide
/-- The bytes of a word are in memory high byte first (20_memory.md R34), and the opcode table numbers the word's bits. -/
theorem test_decode_bytes : decodeBytes [0x81#8, 0x24#8, 0x00#8] = .ok (.addVxVy 1#4 2#4, [0x00#8]) ∧
    decodeBytes [0x81#8] = .error .truncated ∧ decodeTableWord 16 0x8124 = some (.addVxVy 1#4 2#4) ∧
    decodeTableWord 16 0x8128 = none := by decide
/-- The spec assembles the unused field of SHR and SHL as 0 (30_encoding.md R63; S3, S4). -/
theorem test_encode_assembled : encode (.shrVx 1#4 0#4) = 0x8106#16 ∧ encode (.shlVx 1#4 0#4) = 0x810E#16 := by decide

/-! ## One step of each instruction (95_test_vectors.md) -/

/-- F1; F3: an odd target. -/
theorem test_jp : okWith (step (atPc 0x200#16 0x124E#16)) (fun t => t.pc == 0x024E#16) = true ∧
    okWith (step (atPc 0x200#16 0x1201#16)) (fun t => t.pc == 0x0201#16) = true := by decide
/-- K2: the sixteenth level; K7: a return address beyond memory. -/
theorem test_call : okWith (step (withStack 15 0#16 0x300#16 0x2ABC#16))
      (fun t => t.slot 15 == 0x0302#16 && t.sp == 16 && t.pc == 0x0ABC#16) = true ∧
    okWith (step (withStack 0 0#16 0xFFE#16 0x2FFF#16))
      (fun t => t.slot 0 == 0x1000#16 && t.sp == 1 && t.pc == 0x0FFF#16) = true := by decide
/-- K3. -/
theorem test_call_full : faultWith (step (withStack 16 7#16 0x300#16 0x2ABC#16)) (.stackOverflow 0x300#16 0x2ABC#16)
    0x302#16 = true := by decide
/-- K5. -/
theorem test_ret : okWith (step (withStack 16 0x031E#16 0x20C#16 0x00EE#16)) (fun t => t.sp == 15 && t.pc == 0x031E#16) = true := by
  decide
/-- K6. -/
theorem test_ret_empty : faultWith (step (withStack 0 7#16 0x20C#16 0x00EE#16)) (.stackUnderflow 0x20C#16 0x00EE#16)
    0x20E#16 = true := by decide
/-- F5 and F7: not reduced modulo 4096; always `V0`. -/
theorem test_jpV0 : okWith (step (withRegs 0xBFFF#16 0#4 0xFF#8 1#4 0#8 0xAA#8)) (fun t => t.pc == 0x10FE#16) = true ∧
    okWith (step (withRegs 0xB300#16 0#4 0x01#8 3#4 0x80#8 0#8)) (fun t => t.pc == 0x0301#16) = true := by decide
/-- F8, F9. -/
theorem test_seByte : okWith (step (withRegs 0x332A#16 3#4 0x2A#8 0#4 0#8 0#8)) (fun t => t.pc == 0x204#16) = true ∧
    okWith (step (withRegs 0x332A#16 3#4 0x2B#8 0#4 0#8 0#8)) (fun t => t.pc == 0x202#16) = true := by decide
/-- F10, F11. -/
theorem test_sneByte : okWith (step (withRegs 0x432A#16 3#4 0x2A#8 0#4 0#8 0#8)) (fun t => t.pc == 0x202#16) = true ∧
    okWith (step (withRegs 0x4300#16 3#4 0x2A#8 0#4 0#8 0#8)) (fun t => t.pc == 0x204#16) = true := by decide
/-- F13, F14 (at 0x200). -/
theorem test_seReg : okWith (step (withRegs 0x5120#16 1#4 0x77#8 2#4 0x77#8 0#8)) (fun t => t.pc == 0x204#16) = true ∧
    okWith (step (withRegs 0x5120#16 1#4 0x77#8 2#4 0x78#8 0#8)) (fun t => t.pc == 0x202#16) = true := by decide
/-- F19 (at 0x200), F16. -/
theorem test_sneReg : okWith (step (withRegs 0x9AF0#16 0xA#4 0x8E#8 0xF#4 0x00#8 0#8)) (fun t => t.pc == 0x204#16) = true ∧
    okWith (step (withRegs 0x9120#16 1#4 0x77#8 2#4 0x77#8 0#8)) (fun t => t.pc == 0x202#16) = true := by decide
/-- F20: a taken skip past the end of memory. -/
theorem test_skip_end : okWith (step (atPc 0xFFE#16 0x3000#16)) (fun t => t.pc == 0x1002#16) = true := by decide
/-- I1, I2. -/
theorem test_ldByte : okWith (step (atPc 0x200#16 0x6A8F#16)) (fun t => t.reg 0xA#4 == 0x8F#8 && t.pc == 0x202#16) = true ∧
    okWith (step (atPc 0x200#16 0x6F01#16)) (fun t => t.reg 0xF#4 == 0x01#8) = true := by decide
/-- I6: the carry is lost and the flag is untouched; I8: the flag register as destination. -/
theorem test_addByte : okWith (step (withRegs 0x7101#16 1#4 0xFF#8 2#4 0#8 0xAA#8))
      (fun t => t.reg 1#4 == 0x00#8 && t.reg 0xF#4 == 0xAA#8) = true ∧
    okWith (step (withRegs 0x7F10#16 0xF#4 0xF8#8 2#4 0#8 0#8)) (fun t => t.reg 0xF#4 == 0x08#8) = true := by decide
/-- A1 row 2; A3: the flag register copied out. -/
theorem test_ldReg : okWith (step (withRegs 0x8120#16 1#4 0xFF#8 2#4 0x50#8 0xAA#8))
      (fun t => t.reg 1#4 == 0x50#8 && t.reg 0xF#4 == 0xAA#8) = true ∧
    okWith (step (withRegs 0x81F0#16 1#4 0x05#8 0xF#4 0xAA#8 0#8)) (fun t => t.reg 1#4 == 0xAA#8) = true := by decide
/-- A1 row 8; A2. -/
theorem test_or : okWith (step (withRegs 0x8121#16 1#4 0x8F#8 2#4 0x12#8 0xAA#8))
      (fun t => t.reg 1#4 == 0x9F#8 && t.reg 0xF#4 == 0xAA#8) = true ∧
    okWith (step (withRegs 0x8F21#16 0xF#4 0x30#8 2#4 0x45#8 0#8)) (fun t => t.reg 0xF#4 == 0x75#8) = true := by decide
/-- A1 row 8; A2. -/
theorem test_and : okWith (step (withRegs 0x8122#16 1#4 0x8F#8 2#4 0x12#8 0xAA#8))
      (fun t => t.reg 1#4 == 0x02#8 && t.reg 0xF#4 == 0xAA#8) = true ∧
    okWith (step (withRegs 0x8F22#16 0xF#4 0x81#8 2#4 0x03#8 0#8)) (fun t => t.reg 0xF#4 == 0x01#8) = true := by decide
/-- A1 row 8; A5: the same register. -/
theorem test_xor : okWith (step (withRegs 0x8123#16 1#4 0x8F#8 2#4 0x12#8 0xAA#8))
      (fun t => t.reg 1#4 == 0x9D#8 && t.reg 0xF#4 == 0xAA#8) = true ∧
    okWith (step (withRegs 0x8333#16 3#4 0xC3#8 3#4 0xC3#8 0xAA#8)) (fun t => t.reg 3#4 == 0x00#8) = true := by decide
/-- A1 row 6: a sum of exactly 256; A2: the flag register as destination. -/
theorem test_addReg : okWith (step (withRegs 0x8124#16 1#4 0xFF#8 2#4 0x01#8 0xAA#8))
      (fun t => t.reg 1#4 == 0x00#8 && t.reg 0xF#4 == 0x01#8) = true ∧
    okWith (step (withRegs 0x8F24#16 0xF#4 0xFF#8 2#4 0x50#8 0#8)) (fun t => t.reg 0xF#4 == 0x01#8) = true := by decide
/-- A1 row 3; A1 row 5: equal operands give flag 0 (90_conflicts.md C1). -/
theorem test_sub : okWith (step (withRegs 0x8125#16 1#4 0x30#8 2#4 0x45#8 0xAA#8))
      (fun t => t.reg 1#4 == 0xEB#8 && t.reg 0xF#4 == 0x00#8) = true ∧
    okWith (step (withRegs 0x8125#16 1#4 0x77#8 2#4 0x77#8 0xAA#8))
      (fun t => t.reg 1#4 == 0x00#8 && t.reg 0xF#4 == 0x00#8) = true := by decide
/-- S3 with another `y`, which makes no difference; A4. -/
theorem test_shr : okWith (step (withRegs 0x8126#16 1#4 0x8F#8 2#4 0x12#8 0xAA#8))
      (fun t => t.reg 1#4 == 0x47#8 && t.reg 0xF#4 == 0x01#8 && t.reg 2#4 == 0x12#8) = true ∧
    okWith (step (withRegs 0x8FF6#16 0xF#4 0x80#8 0xF#4 0x80#8 0#8)) (fun t => t.reg 0xF#4 == 0x00#8) = true := by decide
/-- A1 row 3; A3: the flag register as source. -/
theorem test_subn : okWith (step (withRegs 0x8127#16 1#4 0x30#8 2#4 0x45#8 0xAA#8))
      (fun t => t.reg 1#4 == 0x15#8 && t.reg 0xF#4 == 0x01#8) = true ∧
    okWith (step (withRegs 0x81F7#16 1#4 0x05#8 0xF#4 0xAA#8 0#8))
      (fun t => t.reg 1#4 == 0xA5#8 && t.reg 0xF#4 == 0x01#8) = true := by decide
/-- S4; A1 row 7. -/
theorem test_shl : okWith (step (withRegs 0x810E#16 1#4 0xD1#8 2#4 0x12#8 0xAA#8))
      (fun t => t.reg 1#4 == 0xA2#8 && t.reg 0xF#4 == 0x01#8) = true ∧
    okWith (step (withRegs 0x812E#16 1#4 0x80#8 2#4 0x80#8 0xAA#8))
      (fun t => t.reg 1#4 == 0x00#8 && t.reg 0xF#4 == 0x01#8) = true := by decide
/-- F24, F25. -/
theorem test_ldI : okWith (step (atPc 0x200#16 0xAFFF#16)) (fun t => t.i == 0x0FFF#16 && t.pc == 0x202#16) = true ∧
    okWith (step ((State.reset.setI 0x0123#16).placeWord 0xA000#16)) (fun t => t.i == 0x0000#16) = true := by decide
/-- N1, N5, with the drawn byte pinned as the vector pins it. -/
theorem test_rnd_pinned : okWith (storeDrawn 0xA7#8 3#4 0x0F#8 State.reset) (fun t => t.reg 3#4 == 0x07#8 && t.draws == 1) = true ∧
    okWith (storeDrawn 0xFF#8 0xF#4 0x01#8 State.reset) (fun t => t.reg 0xF#4 == 0x01#8) = true := by decide
/-- N3: the draw is made although the mask is zero; the byte is the environment's. -/
theorem test_rnd : okWith (step (atPc 0x200#16 0xC300#16)) (fun t => t.draws == 1 && t.pc == 0x202#16) = true := by decide

/-! ## Faults and the host (95_test_vectors.md sets X, M, H; P6) -/

/-- X1, X16; M1. -/
theorem test_invalid : faultWith (step (atPc 0x200#16 0x8128#16)) (.invalidOpcode 0x200#16 0x8128#16) 0x202#16 = true ∧
    faultWith (step (atPc 0x200#16 0xD123#16)) (.invalidOpcode 0x200#16 0xD123#16) 0x202#16 = true ∧
    faultWith (step (State.reset.setPc 0xFFE#16)) (.invalidOpcode 0xFFE#16 0x0000#16) 0x1000#16 = true := by decide
/-- M2, M3, M6. -/
theorem test_fetch_faults : faultWith (step (State.reset.setPc 0xFFF#16)) (.memoryAccessViolation 0x1000) 0xFFF#16 = true ∧
    faultWith (step (State.reset.setPc 0x1000#16)) (.memoryAccessViolation 0x1000) 0x1000#16 = true ∧
    faultWith (step (State.reset.setPc 0xFFFF#16)) (.memoryAccessViolation 0xFFFF) 0xFFFF#16 = true := by decide
/-- P6, and the cycle after it (60_exceptions.md R179). -/
theorem test_no_program : (cycle State.reset).1 = .invalidOpcode 0x200#16 0x0000#16 ∧
    (cycle (cycle State.reset).2).1 = .invalidOpcode 0x202#16 0x0000#16 := by decide
/-- The numbers of 60_exceptions.md R165. -/
theorem test_codes : Status.ok.code = 0 ∧ (Status.invalidOpcode 0#16 0#16).code = 1 ∧ (Status.memoryAccessViolation 0).code = 2 ∧
    (Status.stackOverflow 0#16 0#16).code = 3 ∧ (Status.stackUnderflow 0#16 0#16).code = 4 := by decide
/-- H1, H8. -/
theorem test_host_registers : (hostOp .getI (hostOp (.setI 0xF123#16) State.reset).2).1 = .word 0x0123#16 ∧
    (hostOp (.setReg 15#4 0x7B#8) State.reset).2.reg 0xF#4 = 0x7B#8 := by decide
/-- H3, H4, H5. -/
theorem test_host_memory :
    (hostOp (.memWrite 0xFFE [0x12#8, 0x34#8]) State.reset).2.mem = [(0xFFE, 0x12#8), (0xFFF, 0x34#8)] ∧
    hostOp (.memWrite 0xFFF [0x12#8, 0x34#8]) State.reset = (.refusedMemoryAccessViolation, State.reset) ∧
    (hostOp (.memRead 0x1000 1) State.reset).1 = .refusedMemoryAccessViolation ∧
    (hostOp (.memRead 0xFFE 2) (hostOp (.memWrite 0xFFE [0x12#8, 0x34#8]) State.reset).2).1 = .bytes [0x12#8, 0x34#8] := by decide
/-- P9 in small: what the host writes at `PC` is what the next cycle runs. -/
theorem test_host_write_then_cycle : (hostRun [.loadProgram [0x12#8, 0x00#8], .cycle, .memWrite 0x200 [0x6A#8, 0x55#8], .cycle]
    State.reset).2.reg 0xA#4 = 0x55#8 := by decide
/-- Memory stays in canonical form: writing zero removes a cell. -/
theorem test_memory_canonical : Memory.put [(0x200, 0x12#8), (0x201, 0x34#8)] 0x200 0x00#8 = [(0x201, 0x34#8)] ∧
    Memory.wf [(0x201, 0x34#8), (0x200, 0x12#8)] = false ∧ Memory.wf [(0x200, 0x00#8)] = false ∧
    Memory.wf [(0x1000, 0x01#8)] = false := by decide

/-! ## Witnesses: the hypotheses of the statements are met, at the boundaries of each clause -/

theorem witness_DecodeAndEncode : decode 0x8126#16 = .ok (.shrVx 1#4 2#4) ∧ encode (.shrVx 1#4 2#4) = 0x8126#16 := by decide
theorem witness_RowsAreDisjointAndDecide : (Instr.shlVx 1#4 2#4).row.holds 0x812E#16 ∧
    decode 0x812E#16 = .ok (.shlVx 1#4 2#4) ∧ decode 0x812F#16 = .error .aluNibble := ⟨rfl, rfl, rfl⟩
theorem witness_FetchReadsBigEndianWord : (atPc 0xFFE#16 0x1234#16).fetch = .ok 0x1234#16 ∧
    (State.reset.setPc 0xFFF#16).pc.toNat = 0xFFF ∧ 0xFFF < (State.reset.setPc 0x1000#16).pc.toNat := by decide
theorem witness_StepRunsTheDecodedInstruction : (atPc 0xFFE#16 0x6001#16).fetch = .ok 0x6001#16 ∧
    decode 0x6001#16 = .ok (.ldVxByte 0#4 0x01#8) := by decide
theorem witness_StepFaults : 0xFFF ≤ (State.reset.setPc 0xFFF#16).pc.toNat ∧
    ((atPc 0x200#16 0x0000#16).fetch = .ok 0x0000#16 ∧ Word.wellFormed 0x0000#16 = false) ∧
    ((withStack 16 0#16 0x300#16 0x2ABC#16).fetch = .ok (0x2#4 ++ 0xABC#12) ∧
      (withStack 16 0#16 0x300#16 0x2ABC#16).sp.val = 16) ∧
    ((withStack 0 0#16 0x20C#16 0x00EE#16).fetch = .ok 0x00EE#16 ∧ (withStack 0 0#16 0x20C#16 0x00EE#16).sp.val = 0) := by
  decide
theorem witness_FaultLeavesOnlyTheAdvance :
    step State.reset = .fault (.invalidOpcode 0x200#16 0x0000#16 (State.reset.setPc 0x202#16)) ∧
    step (State.reset.setPc 0xFFF#16) = .fault (.memoryAccessViolation 0x1000 (State.reset.setPc 0xFFF#16)) ∧
    (∃ left, step (withStack 16 0#16 0x300#16 0x2ABC#16) = .fault (.stackOverflow 0x300#16 0x2ABC#16 left)) ∧
    (∃ left, step (withStack 0 0#16 0x20C#16 0x00EE#16) = .fault (.stackUnderflow 0x20C#16 0x00EE#16 left)) :=
  ⟨rfl, rfl, ⟨_, rfl⟩, ⟨_, rfl⟩⟩
/-- A cycle after an invalid word: it runs the word behind it; it faults on a `CALL` at depth 16, a `RET` at depth 0, a
second invalid word (as P6 at 0x202) and an address outside memory. -/
theorem witness_CycleAfterFaultRunsOn : cycle (State.reset.setPc 0xFFF#16) =
      (.memoryAccessViolation 0x1000, State.reset.setPc 0xFFF#16) ∧
    (∃ t, cycle (State.reset.setMem [(0x202, 0x60#8), (0x203, 0x01#8)]) = (.invalidOpcode 0x200#16 0x0000#16, t) ∧
      t.fetch = .ok 0x6001#16 ∧ ∃ u, exec (.ldVxByte 0#4 0x01#8) (t.setPc 0x204#16) = .next u) :=
  ⟨rfl, ⟨_, rfl, rfl, ⟨_, rfl⟩⟩⟩
theorem witness_CycleAfterFaultFaults :
    (∃ t g, cycle ((withStack 16 0#16 0x200#16 0#16).setMem [(0x202, 0x2A#8), (0x203, 0xBC#8)]) =
      (.invalidOpcode 0x200#16 0x0000#16, t) ∧ t.fetch = .ok 0x2ABC#16 ∧
      exec (.callAddr 0xABC#12) (t.setPc 0x204#16) = .fault g ∧ g.status = .stackOverflow 0x202#16 0x2ABC#16) ∧
    (∃ t g, cycle (State.reset.setMem [(0x203, 0xEE#8)]) = (.invalidOpcode 0x200#16 0x0000#16, t) ∧
      t.fetch = .ok 0x00EE#16 ∧ exec .ret (t.setPc 0x204#16) = .fault g ∧
      g.status = .stackUnderflow 0x202#16 0x00EE#16) ∧
    (∃ t, cycle State.reset = (.invalidOpcode 0x200#16 0x0000#16, t) ∧ t.fetch = .ok 0x0000#16 ∧
      Word.wellFormed 0x0000#16 = false) ∧
    (State.reset.setPc 0xFFE#16).pc.toNat = 0xFFE ∧
    (∃ t, cycle (State.reset.setPc 0xFFE#16) = (.invalidOpcode 0xFFE#16 0x0000#16, t)) :=
  ⟨⟨_, _, rfl, rfl, rfl, rfl⟩, ⟨_, _, rfl, rfl, rfl, rfl⟩, ⟨_, rfl, rfl, rfl⟩, rfl, ⟨_, rfl⟩⟩
theorem witness_DrawsMatterOnlyToRnd : ∀ (x : RegIdx) (kk : Byte),
    (atPc 0x200#16 0x1200#16).fetch ≠ .ok (0xC#4 ++ x ++ kk) := by
  intro x kk h
  have ht := congrArg topOf (Except.ok.inj h)
  rw [show topOf (0xC#4 ++ x ++ kk) = 0xC#4 from Laws.topOf_formatXKK _ _ _] at ht
  exact absurd ht (by decide)
/-- A next state of a step, for the whole-machine rules: of `LD I`, `CALL`, `RET`, `RND` and another instruction. -/
theorem witness_StepNext : okWith (step (atPc 0x200#16 0xA123#16)) (fun t => t.i == 0x123#16) = true ∧
    okWith (step (withStack 15 0#16 0x300#16 0x2ABC#16)) (fun t => t.sp == 16) = true ∧
    okWith (step (withStack 1 0x206#16 0x20C#16 0x00EE#16)) (fun t => t.sp == 0) = true ∧
    okWith (step (atPc 0xFFE#16 0xC0FF#16)) (fun t => t.draws == 1) = true ∧
    okWith (step (atPc 0xFFE#16 0x6001#16)) (fun t => t.pc == 0x1000#16) = true := by decide
/-- The three fault clauses, and the greatest address at which an instruction runs: a taken skip leaves 0x1002 (F20). -/
theorem witness_PcAfterEachOperation :
    (∃ left, step (State.reset.setPc 0xFFF#16) = .fault (.memoryAccessViolation 0x1000 left)) ∧
    (∃ left, step (State.reset.setPc 0xFFE#16) = .fault (.invalidOpcode 0xFFE#16 0x0000#16 left)) ∧
    (∃ left, step (withStack 16 0#16 0x300#16 0x2ABC#16) = .fault (.stackOverflow 0x300#16 0x2ABC#16 left)) ∧
    (∃ left, step (withStack 0 0#16 0x20C#16 0x00EE#16) = .fault (.stackUnderflow 0x20C#16 0x00EE#16 left)) ∧
    (atPc 0xFFE#16 0x3000#16).fetch = .ok 0x3000#16 ∧ decode 0x3000#16 = .ok (.seVxByte 0#4 0x00#8) ∧
    (∃ t, step (atPc 0xFFE#16 0x3000#16) = .next t ∧ t.pc = 0x1002#16) :=
  ⟨⟨_, rfl⟩, ⟨_, rfl⟩, ⟨_, rfl⟩, ⟨_, rfl⟩, rfl, rfl, ⟨_, rfl, rfl⟩⟩
theorem witness_OnlyFlagWriters : okWith (exec (.addVxVy 1#4 2#4) State.reset) (fun t => t.reg 0xF#4 == 0#8) = true ∧
    okWith (exec (.ldVxByte 0xE#4 1#8) State.reset) (fun t => t.reg 0xF#4 == 0#8) = true ∧
    okWith (exec (.jpAddr 0#12) State.reset) (fun t => t.reg 0xF#4 == 0#8) = true := by decide
theorem witness_JpLoadsPc : (atPc 0x200#16 0x1200#16).fetch = .ok (0x1#4 ++ 0x200#12) ∧
    (atPc 0x200#16 0x1200#16).pc = (0x200#12).setWidth 16 := by decide
theorem witness_CallPushesAndJumps : (withStack 15 0#16 0x300#16 0#16).sp.val < 16 ∧
    (withStack 16 0#16 0x300#16 0#16).sp.val = 16 := by decide
theorem witness_RetPopsIntoPc : 0 < (withStack 1 0#16 0x300#16 0#16).sp.val ∧ (withStack 0 0#16 0x300#16 0#16).sp.val = 0 := by
  decide
theorem witness_JpV0AddsRegisterZero :
    0x1000 ≤ ((State.reset.setReg 0#4 0x01#8).setPc (zext12 0xFFF#12 + zext8 0x01#8)).pc.toNat := by decide
theorem witness_Skips : (State.reset.reg 3#4 = 0x00#8 ∧ State.reset.reg 3#4 ≠ 0x01#8) ∧
    State.reset.reg 1#4 = State.reset.reg 2#4 ∧ (State.reset.setReg 1#4 5#8).reg 1#4 ≠ (State.reset.setReg 1#4 5#8).reg 2#4 := by
  decide
/-- Two memories that differ outside the two bytes at `PC`. -/
theorem witness_SkipsAdvanceByFourOrTwo : (atPc 0x200#16 0x332A#16).fetch = .ok (0x3#4 ++ 3#4 ++ 0x2A#8) ∧
    ((atPc 0x200#16 0x332A#16).setMem [(0x200, 0x33#8), (0x201, 0x2A#8), (0x202, 0xFF#8)]).fetch = .ok (0x3#4 ++ 3#4 ++ 0x2A#8) ∧
    (atPc 0x200#16 0x432A#16).fetch = .ok (0x4#4 ++ 3#4 ++ 0x2A#8) ∧
    (atPc 0x200#16 0x5120#16).fetch = .ok (0x5#4 ++ 1#4 ++ 2#4 ++ 0x0#4) ∧
    (atPc 0x200#16 0x9120#16).fetch = .ok (0x9#4 ++ 1#4 ++ 2#4 ++ 0x0#4) := by decide
/-- `CALL 0x202` at 0x200, and the `RET` at 0x202, from the deepest level at which the call succeeds. -/
def callThenRet : State :=
  (withStack 15 0#16 0x200#16 0#16).setMem [(0x200, 0x22#8), (0x201, 0x02#8), (0x203, 0xEE#8)]
theorem witness_ReturnGoesBackPastTheCall : ∃ t, callThenRet.fetch = .ok (0x2#4 ++ 0x202#12) ∧ step callThenRet = .next t ∧
    RunAbove callThenRet.sp.val t t ∧ t.fetch = .ok 0x00EE#16 ∧ t.sp.val = callThenRet.sp.val + 1 :=
  ⟨_, rfl, rfl, RunAbove.start _ (by decide), rfl, rfl⟩
theorem witness_UndefinedAluNibbleFaults : (0x8#4 ∈ [0x8#4, 0x9#4, 0xA#4, 0xB#4, 0xC#4, 0xD#4, 0xF#4]) ∧
    (atPc 0x200#16 0x8128#16).fetch = .ok (0x8#4 ++ 1#4 ++ 2#4 ++ 0x8#4) := by decide
theorem witness_DeferredFamiliesFault : (0xD#4 ∈ [0xD#4, 0xE#4, 0xF#4]) ∧
    (atPc 0x200#16 0xD123#16).fetch = .ok (0xD#4 ++ 0x123#12) := by decide
/-- Every `x`: `VF` and another register, for the clauses on `x = 0xF`. -/
theorem witness_AluDestinations : (0xE#4 : RegIdx) ≠ 0xF#4 ∧ (0x0#4 : RegIdx) ≠ 0xF#4 := by decide
theorem witness_ResetGivesTheSpecifiedValues : (hostOp .reset (atPc 0x300#16 0x1234#16)).2 = State.reset := by decide
theorem witness_HostSpecialRegisterAccess : 0xFFE < (0xFFF#16).toNat ∧ ¬ (0xFFE < (0xFFE#16).toNat) := by decide
theorem witness_HostMemory : Memory.wf State.reset.mem = true ∧ 0xFFE + [0x12#8, 0x34#8].length ≤ 0x1000 ∧
    0x1000 < 0xFFF + [0x12#8, 0x34#8].length ∧ [0x12#8, 0x34#8] ≠ [] := by decide
theorem witness_LoadProgramCopiesBytes : (List.replicate 3584 0x12#8).length ≤ 3584 ∧
    3584 < (List.replicate 3585 0x12#8).length := by simp only [List.length_replicate]; omega
theorem witness_FetchSeesHostWrites : Memory.wf State.reset.mem = true ∧ (State.reset.setPc 0xFFE#16).pc.toNat ≤ 0xFFE := by decide
/-- The invariant holds where a call has pushed the greatest return address. -/
theorem witness_StepKeepsInvariant : ∃ t, (atPc 0xFFE#16 0x2FFF#16).Inv ∧ step (atPc 0xFFE#16 0x2FFF#16) = .next t ∧
    t.slot 0 = 0x1000#16 := ⟨_, by decide, rfl, rfl⟩
/-- Each kind of operation from a state that meets the invariant and is not reset: a fault, a cycle that ends `Ok` with the
greatest `PC` (F5), a write of the host, a write refused, and reset. -/
theorem witness_HostOperationsKeepInvariant : (withRegs 0xBFFF#16 0#4 0xFF#8 1#4 0#8 0xAA#8).Inv ∧
    (hostOp .cycle (withRegs 0xBFFF#16 0#4 0xFF#8 1#4 0#8 0xAA#8)).1 = .status .ok ∧
    (hostOp .cycle (withRegs 0xBFFF#16 0#4 0xFF#8 1#4 0#8 0xAA#8)).2.pc = 0x10FE#16 ∧
    (withStack 16 0x1000#16 0x300#16 0x2ABC#16).Inv ∧
    (hostOp .cycle (withStack 16 0x1000#16 0x300#16 0x2ABC#16)).1 = .status (.stackOverflow 0x300#16 0x2ABC#16) ∧
    (hostOp (.memWrite 0xFFF [0x12#8]) State.reset).1 = .ok ∧
    (hostOp (.memWrite 0x1000 [0x12#8]) State.reset).1 = .refusedMemoryAccessViolation := by decide
/-- A reachable state other than reset: a program has been loaded, and its first cycle ends `Ok`. -/
theorem witness_ReachableStatesMeetInvariant : ∃ s t, Reachable s ∧ hostOp .cycle s = (.status .ok, t) :=
  ⟨_, _, Reachable.op (.loadProgram [0x12#8, 0x00#8]) _ Reachable.reset, rfl⟩

end Sys2Proof.Tests
end

section
/-! PROOFS. The decoder and the encoder are inverse to each other: the facts by which a decoded instruction names its word. -/

namespace Sys2Proof.Laws

/-- Decoding the word of an instruction gives the instruction back (30_encoding.md R52, R63). -/
theorem decode_encode (i : Instr) : decode (encode i) = .ok i := by
  cases i with
  | ret => rfl
  | jpAddr | callAddr | ldIAddr | jpV0Addr => simp [encode, decode, hexOf]
  | seVxByte | sneVxByte | ldVxByte | addVxByte | rndVxByte => simp [encode, decode, hexOf]
  | seVxVy | sneVxVy => simp [encode, decode, hexOf]
  | ldVxVy | orVxVy | andVxVy | xorVxVy | addVxVy | subVxVy | shrVx | subnVxVy | shlVx =>
    simp [encode, decode, decodeAlu, hexOf]

/-- The word of an ALU instruction has the fields it was decoded from (43_alu.md R115). -/
theorem encode_of_decodeAlu {x y : RegIdx} {n : Hex} {i : Instr} (h : decodeAlu x y n = .ok i) :
    encode i = formatXYN 0x8#4 x y (nibbleOf n) := by
  cases n <;> cases h <;> rfl

/-- Encoding a decoded instruction gives the word back (40_cycle_decode.md R76). -/
theorem encode_of_decode {w : Word} {i : Instr} (h : decode w = .ok i) : encode i = w := by
  have hnnn := formatNNN_fields w
  have hxkk := formatXKK_fields w
  have hxyn := formatXYN_fields w
  cases htop : hexOf (topOf w) with
  | x0 =>
    simp only [decode, htop] at h
    split at h
    next hret =>
      cases h
      rwa [(hexOf_eq_iff _ _).mp htop, hret] at hnnn
    next => cases h
  | x1 | x2 | xA | xB =>
    simp only [decode, htop] at h
    cases h
    rwa [(hexOf_eq_iff _ _).mp htop] at hnnn
  | x3 | x4 | x6 | x7 | xC =>
    simp only [decode, htop] at h
    cases h
    rwa [(hexOf_eq_iff _ _).mp htop] at hxkk
  | x5 | x9 =>
    simp only [decode, htop] at h
    split at h
    next hn =>
      cases h
      rwa [(hexOf_eq_iff _ _).mp htop, hn] at hxyn
    next => cases h
  | x8 =>
    simp only [decode, htop] at h
    rw [encode_of_decodeAlu h, nibbleOf_hexOf]
    rwa [(hexOf_eq_iff _ _).mp htop] at hxyn
  | xD | xE | xF =>
    simp [decode, htop] at h

/-- Two instructions have two words. -/
theorem encode_injective : Function.Injective encode := by
  intro i j h
  have hd := decode_encode i
  rw [h, decode_encode] at hd
  exact (Except.ok.inj hd).symm

end Sys2Proof.Laws
end

section
/-! PROOFS. What each instruction does, said once: one equation per instruction, over the state its handler sees (`PC` already
advanced, 40_cycle_decode.md R72), and from these the ways an instruction, a step and a cycle can end. -/

namespace Sys2Proof.Machine

/-! ## Push and pop as updates of the state (10_state.md R17) -/

/-- The state after a push below depth 16. -/
def State.pushed (s : State) (w : Word) (h : s.sp.val < 16) : State :=
  { s with slots := s.slots.set s.sp.val w h, sp := ⟨s.sp.val + 1, Nat.succ_lt_succ h⟩ }

/-- The index of the slot that was pushed last, where the depth is above 0. -/
def State.topSlot (s : State) : Fin 16 := ⟨s.sp.val - 1, by omega⟩

/-- The state after a pop above depth 0: the slots keep their bits. -/
def State.popped (s : State) : State := { s with sp := s.topSlot.castSucc }

section
variable (s : State) (w : Word) (h : s.sp.val < 16)

@[simp] theorem State.v_pushed : (s.pushed w h).v = s.v := rfl
@[simp] theorem State.i_pushed : (s.pushed w h).i = s.i := rfl
@[simp] theorem State.pc_pushed : (s.pushed w h).pc = s.pc := rfl
@[simp] theorem State.dt_pushed : (s.pushed w h).dt = s.dt := rfl
@[simp] theorem State.st_pushed : (s.pushed w h).st = s.st := rfl
@[simp] theorem State.mem_pushed : (s.pushed w h).mem = s.mem := rfl
@[simp] theorem State.draws_pushed : (s.pushed w h).draws = s.draws := rfl
@[simp] theorem State.reg_pushed (z : RegIdx) : (s.pushed w h).reg z = s.reg z := rfl
@[simp] theorem State.readByte_pushed (a : Nat) : (s.pushed w h).readByte a = s.readByte a := rfl
@[simp] theorem State.sp_pushed : (s.pushed w h).sp.val = s.sp.val + 1 := rfl

/-- A push writes the slot at the old depth and no other. -/
@[simp] theorem State.slot_pushed (k : Fin 16) :
    (s.pushed w h).slot k = if k.val = s.sp.val then w else s.slot k := by
  simp [State.slot, State.pushed, Vector.getElem_set, eq_comm]

@[simp] theorem State.v_popped : (s.popped).v = s.v := rfl
@[simp] theorem State.i_popped : (s.popped).i = s.i := rfl
@[simp] theorem State.pc_popped : (s.popped).pc = s.pc := rfl
@[simp] theorem State.dt_popped : (s.popped).dt = s.dt := rfl
@[simp] theorem State.st_popped : (s.popped).st = s.st := rfl
@[simp] theorem State.mem_popped : (s.popped).mem = s.mem := rfl
@[simp] theorem State.draws_popped : (s.popped).draws = s.draws := rfl
@[simp] theorem State.reg_popped (z : RegIdx) : (s.popped).reg z = s.reg z := rfl
@[simp] theorem State.readByte_popped (a : Nat) : (s.popped).readByte a = s.readByte a := rfl
@[simp] theorem State.sp_popped : (s.popped).sp.val = s.sp.val - 1 := rfl
@[simp] theorem State.slots_popped : (s.popped).slots = s.slots := rfl
@[simp] theorem State.slot_popped (k : Fin 16) : (s.popped).slot k = s.slot k := rfl

theorem State.push_of_lt : s.push w = some (s.pushed w h) := State.push_eq s w h

theorem State.pop_of_pos (h : 0 < s.sp.val) : s.pop = some (s.slot s.topSlot, s.popped) := State.pop_eq s h

end

/-! ## One equation per instruction -/

section
variable (s : State) (x y : RegIdx) (kk : Byte) (nnn : Addr12)

/-- `RET` above depth 0 (41_control_flow.md R87). -/
theorem exec_ret_of_pos (h : 0 < s.sp.val) : exec .ret s = .next (s.popped.setPc (s.slot s.topSlot)) := by
  simp [exec, execRet, State.pop_of_pos s h, jumpTo]

/-- `RET` at depth 0 (41_control_flow.md R87). -/
theorem exec_ret_of_empty (h : s.sp.val = 0) :
    exec .ret s = .fault (.stackUnderflow (s.pc - 2#16) (encode .ret) s) := by
  simp [exec, execRet, State.pop_empty s h, State.raise]

/-- `CALL addr` below depth 16 (41_control_flow.md R86). -/
theorem exec_callAddr_of_lt (h : s.sp.val < 16) :
    exec (.callAddr nnn) s = .next ((s.pushed s.pc h).setPc (zext12 nnn)) := by
  simp [exec, execCallAddr, State.push_of_lt s s.pc h, jumpTo]

/-- `CALL addr` at depth 16 (41_control_flow.md R86). -/
theorem exec_callAddr_of_full (h : s.sp.val = 16) :
    exec (.callAddr nnn) s = .fault (.stackOverflow (s.pc - 2#16) (encode (.callAddr nnn)) s) := by
  simp [exec, execCallAddr, State.push_full s s.pc h, State.raise]

@[simp] theorem exec_jpAddr : exec (.jpAddr nnn) s = .next (s.setPc (zext12 nnn)) := rfl

@[simp] theorem exec_jpV0Addr :
    exec (.jpV0Addr nnn) s = .next (s.setPc (zext12 nnn + zext8 (s.reg 0#4))) := rfl

@[simp] theorem exec_seVxByte :
    exec (.seVxByte x kk) s = .next (s.setPc (if s.reg x = kk then s.pc + 2#16 else s.pc)) := by
  simp [exec, execSeVxByte, skipIf_eq]

@[simp] theorem exec_sneVxByte :
    exec (.sneVxByte x kk) s = .next (s.setPc (if s.reg x = kk then s.pc else s.pc + 2#16)) := by
  simp [exec, execSneVxByte, skipIf_eq]

@[simp] theorem exec_seVxVy :
    exec (.seVxVy x y) s = .next (s.setPc (if s.reg x = s.reg y then s.pc + 2#16 else s.pc)) := by
  simp [exec, execSeVxVy, skipIf_eq]

@[simp] theorem exec_sneVxVy :
    exec (.sneVxVy x y) s = .next (s.setPc (if s.reg x = s.reg y then s.pc else s.pc + 2#16)) := by
  simp [exec, execSneVxVy, skipIf_eq]

@[simp] theorem exec_ldVxByte : exec (.ldVxByte x kk) s = .next (s.setReg x kk) := rfl
@[simp] theorem exec_addVxByte : exec (.addVxByte x kk) s = .next (s.setReg x (s.reg x + kk)) := rfl
@[simp] theorem exec_ldVxVy : exec (.ldVxVy x y) s = .next (s.setReg x (s.reg y)) := rfl
@[simp] theorem exec_orVxVy : exec (.orVxVy x y) s = .next (s.setReg x (s.reg x ||| s.reg y)) := rfl
@[simp] theorem exec_andVxVy : exec (.andVxVy x y) s = .next (s.setReg x (s.reg x &&& s.reg y)) := rfl
@[simp] theorem exec_xorVxVy : exec (.xorVxVy x y) s = .next (s.setReg x (s.reg x ^^^ s.reg y)) := rfl

@[simp] theorem exec_addVxVy : exec (.addVxVy x y) s =
    .next ((s.setReg x (s.reg x + s.reg y)).setReg Config.flagReg (carryFlag (s.reg x) (s.reg y))) := rfl

@[simp] theorem exec_subVxVy : exec (.subVxVy x y) s =
    .next ((s.setReg x (s.reg x - s.reg y)).setReg Config.flagReg (greaterFlag (s.reg x) (s.reg y))) := rfl

@[simp] theorem exec_shrVx : exec (.shrVx x y) s =
    .next ((s.setReg x (s.reg x >>> 1)).setReg Config.flagReg (shiftOutRight (s.reg x))) := rfl

@[simp] theorem exec_subnVxVy : exec (.subnVxVy x y) s =
    .next ((s.setReg x (s.reg y - s.reg x)).setReg Config.flagReg (greaterFlag (s.reg y) (s.reg x))) := rfl

@[simp] theorem exec_shlVx : exec (.shlVx x y) s =
    .next ((s.setReg x (s.reg x <<< 1)).setReg Config.flagReg (shiftOutLeft (s.reg x))) := rfl

@[simp] theorem exec_ldIAddr : exec (.ldIAddr nnn) s = .next (s.setI (zext12 nnn)) := rfl

@[simp] theorem exec_rndVxByte :
    exec (.rndVxByte x kk) s = .next ((s.setReg x (s.nextDraw &&& kk)).consumeDraw) := rfl

end

/-! ## How an instruction ends -/

/-- What every instruction but `LD I, addr`, `CALL addr` and `RET` keeps: all but the general registers, `PC` and the counter
of draws. -/
structure SameOutsideRegsAndPc (s t : State) : Prop where
  i : t.i = s.i
  slots : t.slots = s.slots
  sp : t.sp = s.sp
  dt : t.dt = s.dt
  st : t.st = s.st
  mem : t.mem = s.mem

/-- `CALL addr` completes only below depth 16. -/
theorem exec_callAddr_next {nnn : Addr12} {s t : State} (h : exec (.callAddr nnn) s = .next t) :
    ∃ hsp : s.sp.val < 16, t = (s.pushed s.pc hsp).setPc (zext12 nnn) := by
  by_cases hsp : s.sp.val < 16
  · rw [exec_callAddr_of_lt s nnn hsp] at h
    cases h
    exact ⟨hsp, rfl⟩
  · rw [exec_callAddr_of_full s nnn (by omega)] at h
    cases h

/-- `RET` completes only above depth 0. -/
theorem exec_ret_next {s t : State} (h : exec .ret s = .next t) :
    0 < s.sp.val ∧ t = s.popped.setPc (s.slot s.topSlot) := by
  by_cases hsp : 0 < s.sp.val
  · rw [exec_ret_of_pos s hsp] at h
    cases h
    exact ⟨hsp, rfl⟩
  · rw [exec_ret_of_empty s (by omega)] at h
    cases h

/-- The ways an instruction completes: the three that write more than registers and `PC`, and all others. -/
theorem exec_next_cases {i : Instr} {s t : State} (h : exec i s = .next t) :
    (∃ nnn, i = .ldIAddr nnn ∧ t = s.setI (zext12 nnn)) ∨
    (∃ nnn, i = .callAddr nnn ∧ ∃ hsp : s.sp.val < 16, t = (s.pushed s.pc hsp).setPc (zext12 nnn)) ∨
    (i = .ret ∧ 0 < s.sp.val ∧ t = s.popped.setPc (s.slot s.topSlot)) ∨
    ((∀ nnn, i ≠ .ldIAddr nnn) ∧ (∀ nnn, i ≠ .callAddr nnn) ∧ i ≠ .ret ∧ SameOutsideRegsAndPc s t) := by
  cases i with
  | ldIAddr nnn =>
    rw [exec_ldIAddr] at h
    cases h
    exact .inl ⟨nnn, rfl, rfl⟩
  | callAddr nnn => exact .inr (.inl ⟨nnn, rfl, exec_callAddr_next h⟩)
  | ret => exact .inr (.inr (.inl ⟨rfl, exec_ret_next h⟩))
  | _ =>
    simp at h
    subst h
    exact .inr (.inr (.inr ⟨by simp, by simp, by simp, ⟨rfl, rfl, rfl, rfl, rfl, rfl⟩⟩))

/-- The two ways an instruction faults, each with the state as its handler found it (60_exceptions.md R163, R164, R168). -/
theorem exec_fault_cases {i : Instr} {s : State} {f : Fault} (h : exec i s = .fault f) :
    (∃ nnn, i = .callAddr nnn ∧ s.sp.val = 16 ∧ f = .stackOverflow (s.pc - 2#16) (encode (.callAddr nnn)) s) ∨
    (i = .ret ∧ s.sp.val = 0 ∧ f = .stackUnderflow (s.pc - 2#16) (encode .ret) s) := by
  cases i with
  | callAddr nnn =>
    by_cases hsp : s.sp.val < 16
    · rw [exec_callAddr_of_lt s nnn hsp] at h
      cases h
    · have hfull : s.sp.val = 16 := by omega
      rw [exec_callAddr_of_full s nnn hfull] at h
      cases h
      exact .inl ⟨nnn, rfl, hfull, rfl⟩
  | ret =>
    by_cases hsp : 0 < s.sp.val
    · rw [exec_ret_of_pos s hsp] at h
      cases h
    · have hempty : s.sp.val = 0 := by omega
      rw [exec_ret_of_empty s hempty] at h
      cases h
      exact .inr ⟨rfl, hempty, rfl⟩
  | _ => simp at h

/-- No instruction is refused. -/
theorem exec_ne_refused (i : Instr) (s : State) (r : Refusal) : exec i s ≠ .refused r := by
  cases i with
  | callAddr nnn =>
    by_cases hsp : s.sp.val < 16
    · simp [exec_callAddr_of_lt s nnn hsp]
    · simp [exec_callAddr_of_full s nnn (by omega)]
  | ret =>
    by_cases hsp : 0 < s.sp.val
    · simp [exec_ret_of_pos s hsp]
    · simp [exec_ret_of_empty s (by omega)]
  | _ => simp

/-! ## How a step and a cycle end -/

/-- A step on a word that decodes to no instruction (40_cycle_decode.md R75). -/
theorem step_of_invalid {s : State} {w : Word} {b : BadWord} (h : s.fetch = .ok w) (hd : decode w = .error b) :
    step s = .fault (.invalidOpcode s.pc w s.advance) := by
  rw [step_of_fetch_ok h]
  simp [execWord, hd, State.raise]

/-- A step on a word that decodes to an instruction (40_cycle_decode.md R74). -/
theorem step_of_decode {s : State} {w : Word} {i : Instr} (h : s.fetch = .ok w) (hd : decode w = .ok i) :
    step s = exec i s.advance := by
  rw [step_of_fetch_ok h]
  simp [execWord, hd]

/-- A step that answers a next state ran the instruction whose word it fetched. -/
theorem step_next_cases {s t : State} (h : step s = .next t) :
    ∃ i, s.fetch = .ok (encode i) ∧ exec i s.advance = .next t := by
  obtain ⟨w, i, hw, hd, hx⟩ := step_next_inv h
  rw [← Laws.encode_of_decode hd] at hw
  exact ⟨i, hw, hx⟩

/-- The four faults of a step, each with its report and the state it leaves (60_exceptions.md R161 to R164, R168). -/
theorem step_fault_cases {s : State} {f : Fault} (h : step s = .fault f) :
    (∃ a, s.fetch = .error a ∧ f = .memoryAccessViolation a s) ∨
    (∃ w b, s.fetch = .ok w ∧ decode w = .error b ∧ f = .invalidOpcode s.pc w s.advance) ∨
    (∃ nnn, s.fetch = .ok (encode (.callAddr nnn)) ∧ s.sp.val = 16 ∧
      f = .stackOverflow s.pc (encode (.callAddr nnn)) s.advance) ∨
    (s.fetch = .ok (encode .ret) ∧ s.sp.val = 0 ∧ f = .stackUnderflow s.pc (encode .ret) s.advance) := by
  cases hf : s.fetch with
  | error a =>
    rw [step_of_fetch_error hf] at h
    cases h
    exact .inl ⟨a, rfl, rfl⟩
  | ok w =>
    cases hd : decode w with
    | error b =>
      rw [step_of_invalid hf hd] at h
      cases h
      exact .inr (.inl ⟨w, b, rfl, hd, rfl⟩)
    | ok i =>
      rw [step_of_decode hf hd] at h
      obtain rfl := Laws.encode_of_decode hd
      obtain ⟨nnn, rfl, hsp, rfl⟩ | ⟨rfl, hsp, rfl⟩ := exec_fault_cases h
      · exact .inr (.inr (.inl ⟨nnn, rfl, hsp, by simp⟩))
      · exact .inr (.inr (.inr ⟨rfl, hsp, by simp⟩))

/-- No step is refused (40_cycle_decode.md R78). -/
theorem step_ne_refused (s : State) (r : Refusal) : step s ≠ .refused r := by
  cases hf : s.fetch with
  | error a => simp [step_of_fetch_error hf]
  | ok w =>
    cases hd : decode w with
    | error b => simp [step_of_invalid hf hd]
    | ok i => rw [step_of_decode hf hd]; exact exec_ne_refused i s.advance r

/-- A faulting step leaves the state as it was, or only advanced (60_exceptions.md R168). -/
theorem left_of_step_fault {s : State} {f : Fault} (h : step s = .fault f) : f.left = s ∨ f.left = s.advance := by
  obtain ⟨a, -, rfl⟩ | ⟨w, b, -, -, rfl⟩ | ⟨nnn, -, -, rfl⟩ | ⟨-, -, rfl⟩ := step_fault_cases h
  · exact .inl rfl
  all_goals exact .inr rfl

/-- The report of a fault is never `Ok` (60_exceptions.md R165). -/
@[simp] theorem Fault.status_ne_ok (f : Fault) : f.status ≠ .ok := by
  cases f <;> simp [Fault.status]

/-- A cycle ends as its step ends: `Ok` in the next state, or in the report and the state left (40_cycle_decode.md R78). -/
theorem cycle_cases (s : State) :
    (∃ t, step s = .next t ∧ cycle s = (.ok, t)) ∨
    (∃ f, step s = .fault f ∧ cycle s = (f.status, f.left)) := by
  cases h : step s with
  | next t => exact .inl ⟨t, rfl, cycle_of_step_next h⟩
  | fault f => exact .inr ⟨f, rfl, cycle_of_step_fault h⟩
  | refused r => exact absurd h (step_ne_refused s r)

end Sys2Proof.Machine
end

section
/-! PROOFS. `PC` after each operation (10_state.md R15). -/

namespace Sys2Proof.Machine

/-! ## Sums within a cycle -/

/-- After a fetch the advance of `PC` does not wrap (10_state.md R15). -/
theorem State.toNat_pc_add_two {s : State} {w : Word} (h : s.fetch = .ok w) :
    (s.pc + 2#16).toNat = s.pc.toNat + 2 ∧ s.pc.toNat + 2 ≤ 0x1000 := by
  have hpc := State.pc_le_of_fetch_ok h
  bv_omega

/-- The advance of a taken skip does not wrap either (10_state.md R15). -/
theorem State.toNat_pc_add_four {s : State} {w : Word} (h : s.fetch = .ok w) :
    (s.pc + 4#16).toNat = s.pc.toNat + 4 := by
  have hpc := State.pc_le_of_fetch_ok h
  bv_omega

/-- Two advances are one by 4. -/
theorem add_two_add_two (a : Word) : a + 2#16 + 2#16 = a + 4#16 := BitVec.add_assoc a 2#16 2#16

theorem toNat_zext12_le (nnn : Addr12) : (zext12 nnn).toNat ≤ 0xFFF := by
  have h := nnn.isLt
  simp only [zext12, BitVec.toNat_setWidth]
  omega

/-- The target of `JP V0, addr` is the sum of its parts, at most 0x10FE (41_control_flow.md R88). -/
theorem toNat_zext12_add_zext8_le (nnn : Addr12) (b : Byte) : (zext12 nnn + zext8 b).toNat ≤ 0x10FE := by
  have hn := nnn.isLt
  have hb := b.isLt
  simp only [zext12, zext8, BitVec.toNat_add, BitVec.toNat_setWidth]
  omega

/-! ## `PC` when an instruction completes -/

/-- `PC` when an instruction completes, from the state its handler sees, where `PC` is `a + 2` (the table of 10_state.md
R15). -/
def pcAfter (s : State) : Instr → Word
  | .ret => s.slot s.topSlot
  | .jpAddr nnn | .callAddr nnn => zext12 nnn
  | .jpV0Addr nnn => zext12 nnn + zext8 (s.reg 0#4)
  | .seVxByte x kk => if s.reg x = kk then s.pc + 2#16 else s.pc
  | .sneVxByte x kk => if s.reg x = kk then s.pc else s.pc + 2#16
  | .seVxVy x y => if s.reg x = s.reg y then s.pc + 2#16 else s.pc
  | .sneVxVy x y => if s.reg x = s.reg y then s.pc else s.pc + 2#16
  | .ldVxByte _ _ | .addVxByte _ _ | .ldVxVy _ _ | .orVxVy _ _ | .andVxVy _ _ | .xorVxVy _ _ | .addVxVy _ _
  | .subVxVy _ _ | .shrVx _ _ | .subnVxVy _ _ | .shlVx _ _ | .ldIAddr _ | .rndVxByte _ _ => s.pc

/-- An instruction that completes leaves `PC` at `pcAfter`. -/
theorem pc_of_exec_next {i : Instr} {s t : State} (h : exec i s = .next t) : t.pc = pcAfter s i := by
  cases i with
  | callAddr nnn =>
    obtain ⟨hsp, rfl⟩ := exec_callAddr_next h
    rfl
  | ret =>
    obtain ⟨hsp, rfl⟩ := exec_ret_next h
    rfl
  | _ =>
    simp at h
    subst h
    rfl

/-- From an advanced `PC` and bounded live return addresses, an instruction that may complete leaves `PC` at most 0x10FE
(10_state.md R22). -/
theorem toNat_pcAfter_le {i : Instr} {s : State} (hpc : s.pc.toNat ≤ 0x1000) (hlive : LiveReturnsBounded s)
    (hret : i = .ret → 0 < s.sp.val) : (pcAfter s i).toNat ≤ 0x10FE := by
  have hskip : (s.pc + 2#16).toNat ≤ 0x10FE := by bv_omega
  have hseq : s.pc.toNat ≤ 0x10FE := by omega
  cases i with
  | ret =>
    have htop : s.topSlot.val < s.sp.val := by
      have := hret rfl
      simp only [State.topSlot]
      omega
    exact (hlive s.topSlot htop).trans (by decide)
  | jpAddr nnn | callAddr nnn => exact (toNat_zext12_le nnn).trans (by decide)
  | jpV0Addr nnn => exact toNat_zext12_add_zext8_le nnn (s.reg 0#4)
  | seVxByte | sneVxByte | seVxVy | sneVxVy =>
    simp only [pcAfter]
    split <;> assumption
  | _ => exact hseq

/-- Settles O19: `PC` after a fault is read off the state left, after an instruction off `pcAfter` at the advanced state. -/
theorem pcAfterEachOperation : Obligations.PcAfterEachOperation := by
  unfold Obligations.PcAfterEachOperation
  refine ⟨?_, ?_, ?_, fun _ => rfl, fun _ _ => rfl⟩
  · intro s addr left h
    obtain ⟨a, -, hf⟩ | ⟨w, b, -, -, hf⟩ | ⟨nnn, -, -, hf⟩ | ⟨-, -, hf⟩ := step_fault_cases h
    all_goals cases hf
    rfl
  · intro s a w left h
    rcases h with h | h | h
    all_goals
      obtain ⟨a, -, hf⟩ | ⟨w, b, -, -, hf⟩ | ⟨nnn, -, -, hf⟩ | ⟨-, -, hf⟩ := step_fault_cases h
      all_goals cases hf
      rfl
  · intro s t w i hf hd h
    rw [step_of_decode hf hd] at h
    refine ⟨⟨(State.toNat_pc_add_two hf).1, (State.toNat_pc_add_two hf).2, State.toNat_pc_add_four hf⟩, ?_⟩
    have hpc := pc_of_exec_next h
    cases i with
    | ret =>
      obtain ⟨hsp, -⟩ := exec_ret_next h
      exact ⟨s.topSlot, Nat.sub_add_cancel hsp, hpc⟩
    | callAddr nnn =>
      obtain ⟨hsp, rfl⟩ := exec_callAddr_next h
      exact ⟨hpc, ⟨s.sp.val, hsp⟩, rfl, by simp⟩
    | jpV0Addr nnn => exact ⟨hpc, hpc ▸ toNat_zext12_add_zext8_le nnn _⟩
    | seVxByte | sneVxByte | seVxVy | sneVxVy =>
      rw [← add_two_add_two]
      exact hpc
    | _ => exact hpc

end Sys2Proof.Machine
end

section
/-! PROOFS. What a cycle changes: memory, timers, the address register, the call stack and `VF` (10_state.md R12 to R18). -/

namespace Sys2Proof.Machine

/-- An instruction that completes keeps memory and timers (20_memory.md R45, 10_state.md R18). -/
theorem exec_next_keeps_mem_timers {i : Instr} {s t : State} (h : exec i s = .next t) :
    t.mem = s.mem ∧ SameTimers s t := by
  obtain ⟨_, -, rfl⟩ | ⟨_, -, _, rfl⟩ | ⟨-, -, rfl⟩ | ⟨-, -, -, hsame⟩ := exec_next_cases h
  · exact ⟨rfl, rfl, rfl⟩
  · exact ⟨rfl, rfl, rfl⟩
  · exact ⟨rfl, rfl, rfl⟩
  · exact ⟨hsame.mem, hsame.dt, hsame.st⟩

/-- A cycle keeps memory and timers, whether it ends `Ok` or faults. -/
theorem cycle_keeps_mem_timers (s : State) : (cycle s).2.mem = s.mem ∧ SameTimers s (cycle s).2 := by
  obtain ⟨t, hstep, hc⟩ | ⟨f, hstep, hc⟩ := cycle_cases s
  · obtain ⟨i, -, hx⟩ := step_next_cases hstep
    have hkeep : t.mem = s.advance.mem ∧ SameTimers s.advance t := exec_next_keeps_mem_timers hx
    rw [hc]
    exact hkeep
  · rw [hc]
    obtain hl | hl := left_of_step_fault hstep
    all_goals
      rw [hl]
      exact ⟨rfl, rfl, rfl⟩

/-- Equal memories read the same at every address. -/
theorem sameMemory_of_mem_eq {s t : State} (h : t.mem = s.mem) : SameMemory s t := by
  intro a
  simp only [State.readByte, h]

/-- Settles O14: an instruction that completes keeps memory and timers, and a fault leaves at most the advance. -/
theorem cycleKeepsMemoryAndTimers : Obligations.CycleKeepsMemoryAndTimers := by
  unfold Obligations.CycleKeepsMemoryAndTimers
  intro s
  obtain ⟨hmem, htimers⟩ := cycle_keeps_mem_timers s
  exact ⟨sameMemory_of_mem_eq hmem, hmem, htimers⟩

/-! ## Which instruction a word is -/

/-- A fetched word is the word of one instruction only. -/
theorem fetch_encode_iff {s : State} {i : Instr} (h : s.fetch = .ok (encode i)) (j : Instr) :
    s.fetch = .ok (encode j) ↔ i = j := by
  rw [h, Except.ok.injEq]
  exact Laws.encode_injective.eq_iff

/-! ## The address register and the call stack -/

/-- `I` after `LD I, addr` is `nnn`: the mask of every write of `I` keeps its 12 bits (10_state.md R13). -/
theorem toNat_zext12_masked (nnn : Addr12) : (zext12 nnn &&& 0x0FFF#16).toNat = nnn.toNat := by
  have h := nnn.isLt
  rw [BitVec.toNat_and]
  simp only [zext12, BitVec.toNat_setWidth, BitVec.toNat_ofNat]
  rw [show 0x0FFF % 2 ^ 16 = 2 ^ 12 - 1 from rfl, Nat.and_two_pow_sub_one_eq_mod]
  omega

/-- Settles O15: of the ways an instruction completes, only `LD I, addr` writes `I`. -/
theorem onlyLdIWritesAddressRegister : Obligations.OnlyLdIWritesAddressRegister := by
  unfold Obligations.OnlyLdIWritesAddressRegister
  intro s t h
  obtain ⟨i, hf, hx⟩ := step_next_cases h
  have hother : (∀ nnn, i ≠ .ldIAddr nnn) → ∀ nnn : Addr12, s.fetch ≠ .ok (0xA#4 ++ nnn) :=
    fun hi nnn hw => hi nnn ((fetch_encode_iff hf (.ldIAddr nnn)).mp hw)
  obtain ⟨nnn, rfl, rfl⟩ | ⟨_, rfl, _, rfl⟩ | ⟨rfl, -, rfl⟩ | ⟨hi, -, -, hsame⟩ := exec_next_cases hx
  · exact .inl ⟨nnn, hf, toNat_zext12_masked nnn⟩
  · exact .inr ⟨hother (by simp), rfl⟩
  · exact .inr ⟨hother (by simp), rfl⟩
  · exact .inr ⟨hother hi, hsame.i⟩

/-- Equal slots and depth are the same call stack. -/
theorem SameOutsideRegsAndPc.sameStack {s t : State} (h : SameOutsideRegsAndPc s t) : SameStack s t :=
  ⟨h.sp, fun k => by simp only [State.slot, h.slots]⟩

/-- Settles O16: of the ways an instruction completes, only `CALL` pushes and only `RET` pops. -/
theorem onlyCallAndRetMoveTheStack : Obligations.OnlyCallAndRetMoveTheStack := by
  unfold Obligations.OnlyCallAndRetMoveTheStack
  intro s t h
  obtain ⟨i, hf, hx⟩ := step_next_cases h
  have hother : (∀ nnn, i ≠ .callAddr nnn) → i ≠ .ret →
      (∀ nnn : Addr12, s.fetch ≠ .ok (0x2#4 ++ nnn)) ∧ s.fetch ≠ .ok 0x00EE#16 := fun hcall hret =>
    ⟨fun nnn hw => hcall nnn ((fetch_encode_iff hf (.callAddr nnn)).mp hw),
      fun hw => hret ((fetch_encode_iff hf .ret).mp hw)⟩
  obtain ⟨nnn, rfl, rfl⟩ | ⟨nnn, rfl, hsp, rfl⟩ | ⟨rfl, hsp, rfl⟩ | ⟨-, hcall, hret, hsame⟩ := exec_next_cases hx
  · obtain ⟨hcall, hret⟩ := hother (by simp) (by simp)
    exact .inr (.inr ⟨hcall, hret, rfl, fun _ => rfl⟩)
  · exact .inl ⟨nnn, hf, rfl, fun k hk => by simp [hk]⟩
  · exact .inr (.inl ⟨hf, Nat.sub_add_cancel hsp, fun _ => rfl⟩)
  · obtain ⟨hcall, hret⟩ := hother hcall hret
    exact .inr (.inr ⟨hcall, hret, hsame.sameStack⟩)

/-! ## The flag register -/

/-- A flag is 0x00 or 0x01 as a whole byte (10_state.md R12). -/
theorem flagByte_eq_zero_or_one (b : Bool) : flagByte b = 0x00#8 ∨ flagByte b = 0x01#8 := by
  cases b
  · exact .inl rfl
  · exact .inr rfl

/-- `VF` after the write of a flag (43_alu.md R105). -/
theorem reg_flagReg_setReg (s : State) (f : Byte) : (s.setReg Config.flagReg f).reg 0xF#4 = f := by
  simp

/-- Settles O17, by the instruction: a flag is written last; another result goes to `Vx`; the rest write no register. -/
theorem onlyFlagWritersOrDestinationChangeVF : Obligations.OnlyFlagWritersOrDestinationChangeVF := by
  unfold Obligations.OnlyFlagWritersOrDestinationChangeVF
  intro i s t h
  cases i with
  | addVxVy | subVxVy | shrVx | subnVxVy | shlVx =>
    cases h
    rw [reg_flagReg_setReg]
    exact flagByte_eq_zero_or_one _
  | ldVxByte x | addVxByte x | ldVxVy x | orVxVy x | andVxVy x | xorVxVy x | rndVxByte x =>
    intro hx
    cases h
    simp [hx.symm]
  | callAddr nnn =>
    obtain ⟨_, rfl⟩ := exec_callAddr_next h
    rfl
  | ret =>
    obtain ⟨_, rfl⟩ := exec_ret_next h
    rfl
  | _ =>
    simp at h
    subst h
    rfl

end Sys2Proof.Machine
end

section
/-! PROOFS. The invariant of 10_state.md R22: at reset, kept by every step and by every operation of the host, and so in every
state the host can reach. -/

namespace Sys2Proof.Machine

/-- Every write of `I` leaves at most 12 bits (10_state.md R13). -/
theorem toNat_masked_le (a : Word) : (a &&& 0x0FFF#16).toNat ≤ 0x0FFF := by
  rw [BitVec.toNat_and]
  exact Nat.and_le_right

/-- A state that keeps `I`, the stack and memory keeps the invariant. -/
theorem SameOutsideRegsAndPc.inv {s t : State} (h : SameOutsideRegsAndPc s t) (hs : s.Inv) : t.Inv := by
  obtain ⟨hwf, hi, hlive⟩ := hs
  refine ⟨h.mem ▸ hwf, h.i ▸ hi, fun k hk => ?_⟩
  rw [h.sameStack.2 k]
  exact hlive k (h.sp ▸ hk)

theorem State.Inv.setI {s : State} (hs : s.Inv) (a : Word) : (s.setI a).Inv := by
  obtain ⟨hwf, -, hlive⟩ := hs
  exact ⟨hwf, toNat_masked_le a, hlive⟩

/-- A push of an address up to 0x1000 keeps the live return addresses bounded. -/
theorem State.Inv.pushed {s : State} (hs : s.Inv) {w : Word} (hw : w.toNat ≤ 0x1000) (hsp : s.sp.val < 16) :
    (s.pushed w hsp).Inv := by
  obtain ⟨hwf, hi, hlive⟩ := hs
  refine ⟨hwf, hi, fun k hk => ?_⟩
  rw [State.sp_pushed] at hk
  rw [State.slot_pushed]
  split
  · exact hw
  · exact hlive k (by omega)

/-- A pop only makes return addresses dead. -/
theorem State.Inv.popped {s : State} (hs : s.Inv) : s.popped.Inv := by
  obtain ⟨hwf, hi, hlive⟩ := hs
  refine ⟨hwf, hi, fun k hk => hlive k ?_⟩
  rw [State.sp_popped] at hk
  omega

/-- An instruction that completes keeps the invariant, where the advanced `PC` is at most 0x1000. -/
theorem State.Inv.exec_next {i : Instr} {s t : State} (hs : s.Inv) (hpc : s.pc.toNat ≤ 0x1000)
    (h : exec i s = .next t) : t.Inv := by
  obtain ⟨nnn, -, rfl⟩ | ⟨nnn, -, hsp, rfl⟩ | ⟨-, -, rfl⟩ | ⟨-, -, -, hsame⟩ := exec_next_cases h
  · exact hs.setI (zext12 nnn)
  · exact hs.pushed hpc hsp
  · exact hs.popped
  · exact hsame.inv hs

/-- Settles O52: the fetched instruction runs with `PC` advanced to at most 0x1000, so it keeps the invariant, and `pcAfter` is
at most 0x10FE. -/
theorem stepKeepsInvariant : Obligations.StepKeepsInvariant := by
  unfold Obligations.StepKeepsInvariant
  intro s t hs h
  obtain ⟨i, hf, hx⟩ := step_next_cases h
  have hadv : s.advance.Inv := hs
  have hpc : s.advance.pc.toNat ≤ 0x1000 := by
    obtain ⟨hsum, hle⟩ := State.toNat_pc_add_two hf
    rw [State.pc_advance, hsum]
    exact hle
  refine ⟨hadv.exec_next hpc hx, ?_⟩
  obtain ⟨-, -, hlive⟩ := hadv
  rw [pc_of_exec_next hx]
  exact toNat_pcAfter_le hpc hlive (by rintro rfl; exact (exec_ret_next hx).1)

/-! ## The operations of the host -/

/-- A cycle keeps the invariant: by the step where it ends `Ok`, and trivially where the fault leaves at most the advance. -/
theorem State.Inv.cycle {s : State} (hs : s.Inv) : (cycle s).2.Inv := by
  obtain ⟨t, hstep, hc⟩ | ⟨f, hstep, hc⟩ := cycle_cases s
  · rw [hc]
    exact (stepKeepsInvariant s t hs hstep).1
  · rw [hc]
    obtain hl | hl := left_of_step_fault hstep
    all_goals
      rw [hl]
      exact hs

/-- A cycle that ends `Ok` leaves `PC` at most 0x10FE. -/
theorem State.Inv.pc_le_of_cycle_ok {s : State} (hs : s.Inv) (hok : (Machine.cycle s).1 = .ok) :
    (Machine.cycle s).2.pc.toNat ≤ 0x10FE := by
  obtain ⟨t, hstep, hc⟩ | ⟨f, -, hc⟩ := cycle_cases s
  · rw [hc]
    exact (stepKeepsInvariant s t hs hstep).2
  · rw [hc] at hok
    exact absurd hok f.status_ne_ok

/-- The reset operation gives a state that meets the invariant, whatever the slots hold: none is live (10_state.md R21). -/
theorem inv_hostReset (s : State) : (hostReset s).Inv :=
  ⟨rfl, Nat.zero_le _, fun k hk => absurd hk (Nat.not_lt_zero k.val)⟩

/-- A write of memory keeps the invariant, accepted or refused (46_host_interface.md R147). -/
theorem State.Inv.writeReply_hostMemWrite {s : State} (hs : s.Inv) (addr : Nat) (bytes : List Byte) :
    (writeReply s (hostMemWrite s addr bytes)).2.Inv := by
  obtain ⟨hw, -⟩ | ⟨m, hm, hw⟩ := hostMemWrite_eq s addr bytes
  · rw [hw]
    exact hs
  · obtain ⟨hwf, hi, hlive⟩ := hs
    rw [hw]
    exact ⟨memWrite_wf hm hwf, hi, hlive⟩

/-- Every operation of the host keeps the invariant (46_host_interface.md R140). -/
theorem State.Inv.hostOp {s : State} (hs : s.Inv) (o : HostOp) : (hostOp o s).2.Inv := by
  cases o with
  | reset => exact inv_hostReset s
  | cycle => exact hs.cycle
  | setI a => exact hs.setI a
  | loadProgram bytes => exact hs.writeReply_hostMemWrite _ bytes
  | memWrite addr bytes => exact hs.writeReply_hostMemWrite addr bytes
  | memRead addr n =>
    simp only [Machine.hostOp]
    split <;> exact hs
  | _ => exact hs

theorem writeReply_ne_status (s : State) (after : Option State) (st : Status) :
    (writeReply s after).1 ≠ .status st := by
  obtain ⟨-, hw⟩ | ⟨t, -, hw⟩ := writeReply_eq s after
  all_goals simp [hw]

/-- Only a cycle answers a status. -/
theorem eq_cycle_of_hostOp_status {o : HostOp} {s : State} {st : Status} (h : (hostOp o s).1 = .status st) :
    o = .cycle := by
  cases o with
  | cycle => rfl
  | loadProgram bytes => exact absurd h (writeReply_ne_status s _ st)
  | memWrite addr bytes => exact absurd h (writeReply_ne_status s _ st)
  | memRead addr n =>
    simp only [Machine.hostOp] at h
    split at h <;> cases h
  | _ => cases h

/-- Settles O54: the invariant by the operation; the bound on `PC` because only a cycle answers a status. -/
theorem hostOperationsKeepInvariant : Obligations.HostOperationsKeepInvariant := by
  unfold Obligations.HostOperationsKeepInvariant
  intro o s hs
  refine ⟨hs.hostOp o, fun hok => ?_⟩
  obtain rfl := eq_cycle_of_hostOp_status hok
  exact hs.pc_le_of_cycle_ok (HostReply.status.inj hok)

/-- Settles O51: memory is empty, `I` is 0 and no return address is live. -/
theorem resetMeetsInvariant : Obligations.ResetMeetsInvariant :=
  inv_hostReset State.reset

/-- Every reachable state meets the invariant, by induction on the operations of the host. -/
theorem Reachable.inv {s : State} (h : Reachable s) : s.Inv := by
  induction h with
  | reset => exact resetMeetsInvariant
  | op o s _ hs => exact hs.hostOp o

/-- Settles O53: a reachable state meets the invariant, from which a cycle that ends `Ok` keeps the bound on `PC`. -/
theorem reachableStatesMeetInvariant : Obligations.ReachableStatesMeetInvariant := by
  unfold Obligations.ReachableStatesMeetInvariant
  intro s hr
  have ⟨hwf, hi, _⟩ := hr.inv
  refine ⟨by omega, hi, hwf, fun t hc => ?_⟩
  have hop := (hostOperationsKeepInvariant .cycle s hr.inv).2
  rw [hc] at hop
  exact hop rfl

end Sys2Proof.Machine
end

section
/-! PROOFS. What the host writes to memory is what the next fetch reads (20_memory.md R34, R43). -/

namespace Sys2Proof.Machine

/-- A host write whose range lies in memory is accepted and changes memory alone (46_host_interface.md R147). -/
theorem hostOp_memWrite_of_le (s : State) {addr : Nat} {bs : List Byte} (h : addr + bs.length ≤ Config.memSize) :
    hostOp (.memWrite addr bs) s = (.ok, s.setMem (Memory.putAll s.mem addr bs)) := by
  simp [hostOp, hostMemWrite, memWrite, h, writeReply]

/-- The two bytes of a word fit into memory up to 0xFFE (20_memory.md R31). -/
theorem add_length_bytesOfWord_le {a : Nat} (h : a ≤ 0xFFE) (w : Word) :
    a + (bytesOfWord w).length ≤ Config.memSize := Nat.add_le_add_right h 2

/-- A word whose bytes are stored at `PC`, high byte first, is the word fetched (20_memory.md R34). -/
theorem fetch_setMem_putAll_bytesOfWord {s : State} (hwf : Memory.wf s.mem = true) (hpc : s.pc.toNat ≤ 0xFFE) (w : Word) :
    (s.setMem (Memory.putAll s.mem s.pc.toNat (bytesOfWord w))).fetch = .ok w := by
  have hfit := add_length_bytesOfWord_le hpc w
  have hread := Memory.lookup_putAll_inside (bytesOfWord w) s.mem s.pc.toNat
  have hhi : Memory.lookup (Memory.putAll s.mem s.pc.toNat (bytesOfWord w)) s.pc.toNat = w.extractLsb' 8 8 :=
    hread 0 hfit hwf Nat.zero_lt_two
  have hlo : Memory.lookup (Memory.putAll s.mem s.pc.toNat (bytesOfWord w)) (s.pc.toNat + 1) = w.extractLsb' 0 8 :=
    hread 1 hfit hwf Nat.one_lt_two
  rw [State.fetch_ok, State.mem_setMem, State.pc_setMem, hhi, hlo, Laws.wordOfBytes_bytesOfWord]
  exact hpc

/-- Settles O50: the write is accepted, the fetch reads the word written, and that word decodes to the instruction. -/
theorem fetchSeesHostWrites : Obligations.FetchSeesHostWrites := by
  unfold Obligations.FetchSeesHostWrites
  intro s i hwf hpc
  have hfit : s.pc.toNat + (encodeBytes i).length ≤ Config.memSize := add_length_bytesOfWord_le hpc (encode i)
  have hfetch := fetch_setMem_putAll_bytesOfWord hwf hpc (encode i)
  exact ⟨_, hostOp_memWrite_of_le s hfit, hfetch, step_of_decode hfetch (Laws.decode_encode i)⟩

end Sys2Proof.Machine
end

section
/-! PROOFS. The encoding (30_encoding.md): the round trip through bytes, the rows of R63 and the invalid words of R58. Each mask
is read as the fields of a word it keeps, and a field names the branch the decoder takes. -/

namespace Sys2Proof.Laws

/-! ## Instructions as bytes -/

/-- The bytes of a word, whatever follows them, decode as the word does (20_memory.md R34). -/
theorem decodeBytes_bytesOfWord {w : Word} {i : Instr} (h : decode w = .ok i) (rest : List Byte) :
    decodeBytes (bytesOfWord w ++ rest) = .ok (i, rest) := by
  simp [bytesOfWord, decodeBytes, h]

/-- Settles O1: the two bytes are those of the instruction's word, which decodes to the instruction. -/
theorem decodeAfterEncodeIsIdentity : Obligations.DecodeAfterEncodeIsIdentity := by
  unfold Obligations.DecodeAfterEncodeIsIdentity
  intro i rest
  exact decodeBytes_bytesOfWord (decode_encode i) rest

/-! ## Fields under a mask -/

theorem topOf_and (w m : Word) : topOf (w &&& m) = topOf w &&& topOf m := BitVec.extractLsb'_and

theorem nOf_and (w m : Word) : nOf (w &&& m) = nOf w &&& nOf m := BitVec.extractLsb'_and

/-- Every row of 30_encoding.md R63 fixes the top nibble. -/
theorem topOf_mask_row (i : Instr) : topOf i.row.mask = 0xF#4 := by
  cases i <;> simp [Instr.row, topOf]

/-- A word has the top nibble of a row it belongs to. -/
theorem topOf_of_holds {i : Instr} {w : Word} (h : i.row.holds w) : topOf w = topOf i.row.bits := by
  rw [← h, topOf_and, topOf_mask_row]
  exact BitVec.and_allOnes.symm

/-- A word has the low nibble of a row it belongs to, where the mask of the row keeps the low nibble. -/
theorem nOf_of_holds {bits w : Word} (h : (Row.mk 0xF00F#16 bits).holds w) : nOf w = nOf bits := by
  rw [show bits = w &&& 0xF00F#16 from h.symm, nOf_and]
  exact BitVec.and_allOnes.symm

/-! ## The rows of 30_encoding.md R63 -/

/-- The word of an instruction belongs to the instruction's row. -/
theorem holds_encode (i : Instr) : i.row.holds (encode i) := by
  cases i with
  | ret => exact EncodedInRow.ret
  | jpAddr nnn => exact EncodedInRow.jpAddr nnn
  | callAddr nnn => exact EncodedInRow.callAddr nnn
  | seVxByte x kk => exact EncodedInRow.seVxByte x kk
  | sneVxByte x kk => exact EncodedInRow.sneVxByte x kk
  | seVxVy x y => exact EncodedInRow.seVxVy x y
  | ldVxByte x kk => exact EncodedInRow.ldVxByte x kk
  | addVxByte x kk => exact EncodedInRow.addVxByte x kk
  | ldVxVy x y => exact EncodedInRow.ldVxVy x y
  | orVxVy x y => exact EncodedInRow.orVxVy x y
  | andVxVy x y => exact EncodedInRow.andVxVy x y
  | xorVxVy x y => exact EncodedInRow.xorVxVy x y
  | addVxVy x y => exact EncodedInRow.addVxVy x y
  | subVxVy x y => exact EncodedInRow.subVxVy x y
  | shrVx x y => exact EncodedInRow.shrVx x y
  | subnVxVy x y => exact EncodedInRow.subnVxVy x y
  | shlVx x y => exact EncodedInRow.shlVx x y
  | sneVxVy x y => exact EncodedInRow.sneVxVy x y
  | ldIAddr nnn => exact EncodedInRow.ldIAddr nnn
  | jpV0Addr nnn => exact EncodedInRow.jpV0Addr nnn
  | rndVxByte x kk => exact EncodedInRow.rndVxByte x kk

/-- A word belongs to the row of the instruction it decodes to. -/
theorem holds_of_decode {w : Word} {i : Instr} (h : decode w = .ok i) : i.row.holds w :=
  encode_of_decode h ▸ holds_encode i

/-- A word of a row decodes, and to an instruction of that row: the nibbles the row fixes are the ones the decoder dispatches
on. -/
theorem map_row_decode_of_holds {i : Instr} {w : Word} (h : i.row.holds w) : (decode w).map Instr.row = .ok i.row := by
  have htop := topOf_of_holds h
  cases i with
  | ret =>
    have hw : w = 0x00EE#16 := BitVec.and_allOnes.symm.trans h
    rw [hw]
    rfl
  | jpAddr | callAddr | ldIAddr | jpV0Addr | seVxByte | sneVxByte | ldVxByte | addVxByte | rndVxByte =>
    simp only [Instr.row] at htop
    rw [decode, htop]
    rfl
  | seVxVy | sneVxVy | ldVxVy | orVxVy | andVxVy | xorVxVy | addVxVy | subVxVy | shrVx | subnVxVy | shlVx =>
    simp only [Instr.row] at htop
    rw [decode, htop, nOf_of_holds h]
    rfl

/-- Settles O4: the row a word belongs to is the row of what it decodes to. -/
theorem rowsAreDisjointAndDecide : Obligations.RowsAreDisjointAndDecide := by
  unfold Obligations.RowsAreDisjointAndDecide
  intro w
  refine ⟨fun i j hi hj => ?_, fun i => holds_of_decode, fun b hb i hi => ?_⟩
  · have hij := (map_row_decode_of_holds hi).symm.trans (map_row_decode_of_holds hj)
    exact Except.ok.inj hij
  · have hrow := map_row_decode_of_holds hi
    rw [hb] at hrow
    cases hrow

/-! ## The invalid words of 30_encoding.md R58 -/

/-- A value in the top nibble alone, held against a word under the mask of the top nibble, tests the family of the word. -/
theorem and_topMask_eq_iff (w : Word) (t : Hex) :
    w &&& 0xF000#16 = formatNNN (nibbleOf t) 0#12 ↔ hexOf (topOf w) = t := by
  rw [hexOf_eq_iff, ← formatNNN_fields w, EncodedInRow.formatNNN_mask, topOf_formatNNN]
  constructor
  · intro h
    simpa using congrArg topOf h
  · intro h
    rw [h]

/-- A check made of the words of family `t` only (the shape of the first four rows of 30_encoding.md R58). -/
theorem family_check_iff (w : Word) (t : Hex) (check : Bool) :
    ((w &&& 0xF000#16) != formatNNN (nibbleOf t) 0#12 || check) = true ↔ (hexOf (topOf w) = t → check = true) := by
  rw [Bool.or_eq_true, bne_iff_ne, ne_eq, and_topMask_eq_iff, imp_iff_not_or]

/-- The mask of the low nibble leaves the low nibble. -/
theorem and_lowMask (w : Word) : w &&& 0x000F#16 = (nOf w).setWidth 16 := by
  apply BitVec.eq_of_toNat_eq
  have hmask : w.toNat &&& 15 = w.toNat % 16 := Nat.and_two_pow_sub_one_eq_mod w.toNat 4
  simp only [nOf, BitVec.toNat_and, BitVec.toNat_setWidth, BitVec.extractLsb'_toNat, BitVec.toNat_ofNat,
    Nat.reducePow, Nat.reduceMod, Nat.shiftRight_zero, hmask]
  omega

theorem lowNibble_beq_zero_iff (w : Word) : ((w &&& 0x000F#16) == 0x0000#16) = true ↔ nOf w = 0x0#4 := by
  rw [and_lowMask]
  generalize nOf w = n
  revert n
  decide

/-- The low nibbles 0 to 7 and E are those to which the ALU dispatch gives an instruction (30_encoding.md R57). -/
theorem lowNibble_alu_iff (w : Word) (x y : RegIdx) :
    (decide ((w &&& 0x000F#16).toNat ≤ 7) || (w &&& 0x000F#16) == 0x000E#16) = true ↔
      ∃ i, decodeAlu x y (hexOf (nOf w)) = .ok i := by
  rw [and_lowMask, ← nibbleOf_hexOf (nOf w), hexOf_nibbleOf]
  cases hexOf (nOf w) <;> simp [nibbleOf, decodeAlu]

theorem eq_00EE_iff {w : Word} (h : hexOf (topOf w) = .x0) : (w == 0x00EE#16) = true ↔ nnnOf w = 0x0EE#12 := by
  rw [beq_iff_eq]
  constructor
  · intro hw
    rw [hw]
    rfl
  · intro hn
    rw [← formatNNN_fields w, (hexOf_eq_iff _ _).mp h, hn]
    rfl

/-! Each check of R58 says when the branch the decoder takes for a family gives an instruction. -/

theorem family0Ok_iff (w : Word) : Word.family0Ok w = true ↔ (hexOf (topOf w) = .x0 → nnnOf w = 0x0EE#12) :=
  (family_check_iff w .x0 _).trans (imp_congr_right eq_00EE_iff)

theorem family5Ok_iff (w : Word) : Word.family5Ok w = true ↔ (hexOf (topOf w) = .x5 → nOf w = 0x0#4) :=
  (family_check_iff w .x5 _).trans (imp_congr_right fun _ => lowNibble_beq_zero_iff w)

theorem family8Ok_iff (w : Word) :
    Word.family8Ok w = true ↔
      (hexOf (topOf w) = .x8 → ∃ i, decodeAlu (xOf w) (yOf w) (hexOf (nOf w)) = .ok i) := by
  rw [Word.family8Ok, Bool.or_assoc]
  exact (family_check_iff w .x8 _).trans (imp_congr_right fun _ => lowNibble_alu_iff w _ _)

theorem family9Ok_iff (w : Word) : Word.family9Ok w = true ↔ (hexOf (topOf w) = .x9 → nOf w = 0x0#4) :=
  (family_check_iff w .x9 _).trans (imp_congr_right fun _ => lowNibble_beq_zero_iff w)

theorem notDeferred_iff (w : Word) : Word.notDeferred w = true ↔ hexOf (topOf w) ∉ [Hex.xD, .xE, .xF] := by
  have htop : w.toNat < 0xD000 ↔ (topOf w).toNat < 0xD := by
    simp only [topOf, BitVec.extractLsb'_toNat, Nat.shiftRight_eq_div_pow]
    omega
  rw [Word.notDeferred, decide_eq_true_eq, htop]
  generalize topOf w = t
  revert t
  decide

/-- A branch of the decoder under a condition gives an instruction exactly when the condition holds. -/
theorem exists_ite_eq_ok_iff (p : Prop) [Decidable p] (i : Instr) (b : BadWord) :
    (∃ j, (if p then .ok i else .error b : Except BadWord Instr) = .ok j) ↔ p := by
  split <;> simp [*]

/-- The words outside the list of 30_encoding.md R58 are those that decode to an instruction. -/
theorem wellFormed_iff (w : Word) : Word.wellFormed w = true ↔ ∃ i, decode w = .ok i := by
  simp only [Word.wellFormed, Bool.and_eq_true, family0Ok_iff, family5Ok_iff, family8Ok_iff, family9Ok_iff,
    notDeferred_iff]
  cases htop : hexOf (topOf w) with
  | x0 | x5 | x9 => simp [decode, htop, exists_ite_eq_ok_iff]
  | x1 | x2 | x3 | x4 | x6 | x7 | x8 | xA | xB | xC | xD | xE | xF => simp [decode, htop]

/-- Settles O3: the words outside the list are those that decode to an instruction, and every other word is refused. -/
theorem invalidWordsAreTheListedOnes : Obligations.InvalidWordsAreTheListedOnes := by
  unfold Obligations.InvalidWordsAreTheListedOnes
  intro w
  rw [← Bool.not_eq_true, wellFormed_iff]
  cases decode w <;> simp

/-! ## Sample words -/

/-- Settles O5: each word is a closed instance of the decoder. -/
theorem sampleWordsDecode : Obligations.SampleWordsDecode := by
  unfold Obligations.SampleWordsDecode
  decide

end Sys2Proof.Laws
end

section
/-! PROOFS. The cycle (40_cycle_decode.md): the word a decoded instruction stands for, the fetch, dispatch, the invalid words, and
what the counter of draws can reach. -/

namespace Sys2Proof.Machine

/-! ## Decoding and dispatch -/

/-- Settles O2: each branch of the decoder keeps the fields it read in the instruction it gives. -/
theorem encodeAfterDecodeReturnsWord : Obligations.EncodeAfterDecodeReturnsWord :=
  fun _ _ => Laws.encode_of_decode

/-- Settles O7: the fetch succeeded, so `PC` is at most 0xFFE and the advance does not wrap. -/
theorem stepRunsTheDecodedInstruction : Obligations.StepRunsTheDecodedInstruction := by
  unfold Obligations.StepRunsTheDecodedInstruction
  intro s w i hf hd
  exact ⟨step_of_decode hf hd, (State.toNat_pc_add_two hf).1⟩

/-- Settles O8: of the four faults of a step only the one of an undecodable word is `InvalidOpcode`, and the undecodable words
are the listed ones. -/
theorem invalidOpcodeForExactlyTheInvalidWords : Obligations.InvalidOpcodeForExactlyTheInvalidWords := by
  unfold Obligations.InvalidOpcodeForExactlyTheInvalidWords
  intro s a w left
  constructor
  · intro h
    obtain ⟨_, -, hf⟩ | ⟨w', b, hw, hd, hf⟩ | ⟨_, -, -, hf⟩ | ⟨-, -, hf⟩ := step_fault_cases h
    all_goals cases hf
    exact ⟨hw, (Laws.invalidWordsAreTheListedOnes w).mp ⟨b, hd⟩, rfl, rfl⟩
  · rintro ⟨hw, hbad, rfl, rfl⟩
    obtain ⟨b, hd⟩ := (Laws.invalidWordsAreTheListedOnes w).mpr hbad
    exact step_of_invalid hw hd

/-! ## The fetch -/

/-- Big-endian: the byte at the lower address counts 256 (20_memory.md R34). -/
theorem toNat_wordOfBytes (hi lo : Byte) : (wordOfBytes hi lo).toNat = hi.toNat * 256 + lo.toNat := by
  rw [wordOfBytes, BitVec.toNat_append, ← Nat.shiftLeft_add_eq_or_of_lt lo.isLt, Nat.shiftLeft_eq]

/-- `MemRead` of two bytes in memory (20_memory.md R32). -/
theorem memRead_two (m : Memory) {a : Nat} (h : a ≤ 0xFFE) :
    memRead m a 2 = .ok [Memory.lookup m a, Memory.lookup m (a + 1)] :=
  memRead_ok m 2 a (Nat.add_le_add_right h 2)

/-- Settles O6: up to 0xFFE both bytes are in memory; at 0xFFF the second and above it the first is the invalid one. -/
theorem fetchReadsBigEndianWord : Obligations.FetchReadsBigEndianWord := by
  unfold Obligations.FetchReadsBigEndianWord
  intro s
  refine ⟨fun h => ?_, fun h => step_of_fetch_error (s.fetch_last h), fun h => step_of_fetch_error (s.fetch_outside h),
    fun ⟨_, hw⟩ => State.pc_le_of_fetch_ok hw, fun h => ⟨_, s.fetch_ok h⟩⟩
  exact ⟨_, _, _, memRead_two s.mem h, s.readByte_valid (by omega), s.readByte_valid (by omega), s.fetch_ok h,
    toNat_wordOfBytes _ _⟩

/-! ## The two faults of the call stack, as steps -/

/-- A step on `CALL addr` at depth 16 (60_exceptions.md R163). -/
theorem step_callAddr_of_full {s : State} {nnn : Addr12} (h : s.fetch = .ok (encode (.callAddr nnn)))
    (hsp : s.sp.val = 16) : step s = .fault (.stackOverflow s.pc (encode (.callAddr nnn)) s.advance) := by
  rw [step_of_decode h (Laws.decode_encode _), exec_callAddr_of_full s.advance nnn hsp, State.pc_advance_sub]

/-- A step on `RET` at depth 0 (60_exceptions.md R164). -/
theorem step_ret_of_empty {s : State} (h : s.fetch = .ok (encode .ret)) (hsp : s.sp.val = 0) :
    step s = .fault (.stackUnderflow s.pc (encode .ret) s.advance) := by
  rw [step_of_decode h (Laws.decode_encode _), exec_ret_of_empty s.advance hsp, State.pc_advance_sub]

/-! ## The counter of draws (44_compare_address_random.md R123) -/

/-- The state after `n` draws in place of those made. -/
def State.withDraws (s : State) (n : Nat) : State := { s with draws := n }

theorem State.fetch_withDraws (s : State) (n : Nat) : (s.withDraws n).fetch = s.fetch := rfl

theorem State.advance_withDraws (s : State) (n : Nat) : (s.withDraws n).advance = s.advance.withDraws n := rfl

/-- An instruction other than `RND` that completes does so whatever has been drawn, and leaves the counter alone. -/
theorem exec_withDraws_of_next {i : Instr} {s t : State} (n : Nat) (hi : ∀ x kk, i ≠ .rndVxByte x kk)
    (h : exec i s = .next t) : exec i (s.withDraws n) = .next (t.withDraws n) := by
  cases i with
  | callAddr nnn =>
    obtain ⟨hsp, rfl⟩ := exec_callAddr_next h
    exact exec_callAddr_of_lt (s.withDraws n) nnn hsp
  | ret =>
    obtain ⟨hsp, rfl⟩ := exec_ret_next h
    exact exec_ret_of_pos (s.withDraws n) hsp
  | rndVxByte x kk => exact absurd rfl (hi x kk)
  | _ =>
    simp at h ⊢
    subst h
    rfl

/-- A step that faults does so with the same report whatever has been drawn, and leaves the counter alone. -/
theorem cycle_withDraws_of_step_fault {s : State} {f : Fault} (n : Nat) (h : step s = .fault f) :
    cycle (s.withDraws n) = (f.status, f.left.withDraws n) := by
  have hfetch := s.fetch_withDraws n
  obtain ⟨a, hf, rfl⟩ | ⟨w, b, hf, hd, rfl⟩ | ⟨nnn, hf, hsp, rfl⟩ | ⟨hf, hsp, rfl⟩ := step_fault_cases h
  all_goals rw [hf] at hfetch
  · exact cycle_of_fetch_error hfetch
  · exact cycle_of_invalid hfetch hd
  · exact cycle_of_step_fault (step_callAddr_of_full hfetch hsp)
  · exact cycle_of_step_fault (step_ret_of_empty hfetch hsp)

/-- Settles O12: an instruction that completes reads the counter only if it is `RND`, and no fault reads it. -/
theorem drawsMatterOnlyToRnd : Obligations.DrawsMatterOnlyToRnd := by
  unfold Obligations.DrawsMatterOnlyToRnd
  intro s n hrnd
  change cycle (s.withDraws n) = ((cycle s).1, (cycle s).2.withDraws n)
  obtain ⟨t, hstep, hc⟩ | ⟨f, hstep, hc⟩ := cycle_cases s
  · obtain ⟨i, hf, hx⟩ := step_next_cases hstep
    have hi : ∀ x kk, i ≠ .rndVxByte x kk := by
      rintro x kk rfl
      exact hrnd x kk hf
    have hf' : (s.withDraws n).fetch = .ok (encode i) := (s.fetch_withDraws n).trans hf
    have hstep' : step (s.withDraws n) = .next (t.withDraws n) := by
      rw [step_of_decode hf' (Laws.decode_encode i), State.advance_withDraws, exec_withDraws_of_next n hi hx]
    rw [hc, cycle_of_step_next hstep']
  · rw [hc, cycle_withDraws_of_step_fault n hstep]

end Sys2Proof.Machine
end

section
/-! PROOFS. Control flow (41_control_flow.md): jumps, calls and returns, the skips, and the call stack across a run of the
host. -/

namespace Sys2Proof.Machine

/-! ## Jumps -/

/-- A write of `PC` changes nothing else (10_state.md R14). -/
theorem sameBut_setPc (s : State) (a : Word) : SameBut [] s (s.setPc a) :=
  ⟨fun _ _ => rfl, rfl, ⟨rfl, fun _ => rfl⟩, ⟨rfl, rfl⟩, fun _ => rfl, rfl⟩

/-- Settles O20: the target is `nnn`; at 0xFFF the second byte of the next word is outside memory, and a jump to its own
address writes back the `PC` it was fetched from. -/
theorem jpLoadsPc : Obligations.JpLoadsPc := by
  unfold Obligations.JpLoadsPc
  intro nnn s
  have hd : decode (0x1#4 ++ nnn) = .ok (.jpAddr nnn) := Laws.decode_encode (.jpAddr nnn)
  refine ⟨hd, ⟨_, exec_jpAddr s nnn, rfl, sameBut_setPc s _, ?_⟩, fun hf hpc => ?_⟩
  · rintro rfl
    exact step_of_fetch_error (State.fetch_last _ rfl)
  · have hself : s.advance.setPc (zext12 nnn) = s := by
      rw [zext12, ← hpc]
      rfl
    rw [step_of_decode hf hd, exec_jpAddr, hself]

/-- The sum of `JP V0, addr` does not wrap (41_control_flow.md R88). -/
theorem toNat_zext12_add_zext8 (nnn : Addr12) (b : Byte) : (zext12 nnn + zext8 b).toNat = nnn.toNat + b.toNat := by
  have hn := nnn.isLt
  have hb := b.isLt
  simp only [zext12, zext8, BitVec.toNat_add, BitVec.toNat_setWidth]
  omega

/-- Settles O23: the sum does not wrap, and from 0x1000 on the next fetch has no first byte. -/
theorem jpV0AddsRegisterZero : Obligations.JpV0AddsRegisterZero := by
  unfold Obligations.JpV0AddsRegisterZero
  intro nnn s
  exact ⟨Laws.decode_encode (.jpV0Addr nnn), _, exec_jpV0Addr s nnn, toNat_zext12_add_zext8 nnn _,
    toNat_zext12_add_zext8_le nnn _, sameBut_setPc s _, fun h => step_of_fetch_error (State.fetch_outside _ h)⟩

/-! ## Call and return -/

/-- Settles O21: the push writes the slot at the old depth alone, and at depth 16 there is no push. -/
theorem callPushesAndJumps : Obligations.CallPushesAndJumps := by
  unfold Obligations.CallPushesAndJumps
  intro nnn s
  refine ⟨Laws.decode_encode (.callAddr nnn), fun h => ?_, exec_callAddr_of_full s nnn⟩
  have hslot : (s.pushed s.pc h).slot ⟨s.sp.val, h⟩ = s.pc := by simp
  have hother : ∀ k : Fin 16, k.val ≠ s.sp.val → (s.pushed s.pc h).slot k = s.slot k := fun k hk => by simp [hk]
  exact ⟨_, exec_callAddr_of_lt s nnn h, rfl, rfl, hslot, hother, fun _ _ => rfl, rfl, ⟨rfl, rfl⟩, fun _ => rfl, rfl⟩

/-- Settles O22: the pop reads the slot below the depth and writes none, and at depth 0 there is no pop. -/
theorem retPopsIntoPc : Obligations.RetPopsIntoPc := by
  unfold Obligations.RetPopsIntoPc
  refine ⟨Laws.decode_encode .ret, fun s => ⟨fun h => ?_, exec_ret_of_empty s⟩⟩
  exact ⟨_, exec_ret_of_pos s h, Nat.sub_add_cancel h, rfl, fun _ => rfl, fun _ _ => rfl, rfl,
    ⟨rfl, rfl⟩, fun _ => rfl, rfl⟩

/-! ## Skips -/

/-- Settles O24: the condition is the equality of `V[x]` and `kk`. -/
theorem seByteSkipsOnEquality : Obligations.SeByteSkipsOnEquality := by
  unfold Obligations.SeByteSkipsOnEquality
  intro x kk s
  exact ⟨Laws.decode_encode (.seVxByte x kk), _, exec_seVxByte s x kk, sameBut_setPc s _, fun h => if_pos h,
    fun h => if_neg h⟩

/-- Settles O25: the branches of `SE Vx, byte` exchanged. -/
theorem sneByteSkipsOnInequality : Obligations.SneByteSkipsOnInequality := by
  unfold Obligations.SneByteSkipsOnInequality
  intro x kk s
  exact ⟨Laws.decode_encode (.sneVxByte x kk), _, exec_sneVxByte s x kk, sameBut_setPc s _, fun h => if_neg h,
    fun h => if_pos h⟩

/-- In the two families of register skips any low nibble but 0 is invalid (30_encoding.md R56). -/
theorem decode_formatXYN_of_skipNibble {top n : BitVec 4} (htop : top = 0x5#4 ∨ top = 0x9#4) (x y : RegIdx)
    (hn : n ≠ 0x0#4) : decode (formatXYN top x y n) = .error .skipNibble := by
  obtain rfl | rfl := htop
  all_goals simp [decode, hexOf, hn]

/-- Settles O26: the condition is the equality of the two registers, and the low nibble is part of the decoding. -/
theorem seRegistersSkipsOnEquality : Obligations.SeRegistersSkipsOnEquality := by
  unfold Obligations.SeRegistersSkipsOnEquality
  intro x y s
  exact ⟨Laws.decode_encode (.seVxVy x y), fun _ => decode_formatXYN_of_skipNibble (.inl rfl) x y, _, exec_seVxVy s x y,
    sameBut_setPc s _, fun h => if_pos h, fun h => if_neg h⟩

/-! ## No instruction reads memory beyond its own word (41_control_flow.md R92) -/

/-- An instruction that completes does so in any memory, which it leaves as it is. -/
theorem exec_setMem_of_next {i : Instr} {s t : State} (m : Memory) (h : exec i s = .next t) :
    exec i (s.setMem m) = .next (t.setMem m) := by
  cases i with
  | callAddr nnn =>
    obtain ⟨hsp, rfl⟩ := exec_callAddr_next h
    exact exec_callAddr_of_lt (s.setMem m) nnn hsp
  | ret =>
    obtain ⟨hsp, rfl⟩ := exec_ret_next h
    exact exec_ret_of_pos (s.setMem m) hsp
  | _ =>
    simp at h ⊢
    subst h
    rfl

/-- A step whose instruction completes leaves `PC` at `pcAfter`, and does the same in any memory with the same word at `PC`. -/
theorem step_and_setMem_of_exec_next {s t : State} {i : Instr} {m : Memory} (hf : s.fetch = .ok (encode i))
    (hm : (s.setMem m).fetch = .ok (encode i)) (h : exec i s.advance = .next t) :
    ∃ t, step s = .next t ∧ step (s.setMem m) = .next (t.setMem m) ∧ t.pc = pcAfter s.advance i := by
  have hd := Laws.decode_encode i
  exact ⟨t, (step_of_decode hf hd).trans h, (step_of_decode hm hd).trans (exec_setMem_of_next m h), pc_of_exec_next h⟩

/-- Settles O28: a skip leaves `PC` at `pcAfter` of the advanced state, whatever the memory besides its own word. -/
theorem skipsAdvanceByFourOrTwo : Obligations.SkipsAdvanceByFourOrTwo := by
  unfold Obligations.SkipsAdvanceByFourOrTwo
  intro s w x y kk m hf hm
  rw [← add_two_add_two]
  refine ⟨?_, ?_, ?_, ?_⟩
  · rintro rfl
    exact step_and_setMem_of_exec_next (i := .seVxByte x kk) hf hm (exec_seVxByte _ x kk)
  · rintro rfl
    exact step_and_setMem_of_exec_next (i := .sneVxByte x kk) hf hm (exec_sneVxByte _ x kk)
  · rintro rfl
    exact step_and_setMem_of_exec_next (i := .seVxVy x y) hf hm (exec_seVxVy _ x y)
  · rintro rfl
    exact step_and_setMem_of_exec_next (i := .sneVxVy x y) hf hm (exec_sneVxVy _ x y)

/-! ## Live return addresses across a run of the host (41_control_flow.md R93) -/

/-- An instruction that completes writes no live slot: `CALL addr` writes the one at the depth, above them all. -/
theorem exec_next_keeps_live_slot {i : Instr} {s t : State} (h : exec i s = .next t) {k : Fin 16}
    (hk : k.val < s.sp.val) : t.slot k = s.slot k := by
  obtain ⟨_, -, rfl⟩ | ⟨_, -, _, rfl⟩ | ⟨-, -, rfl⟩ | ⟨-, -, -, hsame⟩ := exec_next_cases h
  · rfl
  · simp [hk.ne]
  · rfl
  · exact hsame.sameStack.2 k

/-- A cycle writes no live slot, whether it ends `Ok` or faults. -/
theorem cycle_keeps_live_slot {s : State} {k : Fin 16} (hk : k.val < s.sp.val) : (cycle s).2.slot k = s.slot k := by
  obtain ⟨t, hstep, hc⟩ | ⟨f, hstep, hc⟩ := cycle_cases s
  · obtain ⟨i, -, hx⟩ := step_next_cases hstep
    rw [hc]
    exact exec_next_keeps_live_slot (s := s.advance) hx hk
  · rw [hc]
    obtain hl | hl := left_of_step_fault hstep
    all_goals simp [hl]

/-- A write of memory by the host, accepted or refused, writes no slot. -/
theorem writeReply_hostMemWrite_slot (s : State) (addr : Nat) (bytes : List Byte) (k : Fin 16) :
    (writeReply s (hostMemWrite s addr bytes)).2.slot k = s.slot k := by
  obtain ⟨h, -⟩ | ⟨m, -, h⟩ := hostMemWrite_eq s addr bytes
  all_goals simp [h, writeReply]

/-- No operation of the host writes a live slot: the cycle alone writes slots at all. -/
theorem hostOp_keeps_live_slot (o : HostOp) {s : State} {k : Fin 16} (hk : k.val < s.sp.val) :
    (hostOp o s).2.slot k = s.slot k := by
  cases o with
  | cycle => exact cycle_keeps_live_slot hk
  | loadProgram bytes => exact writeReply_hostMemWrite_slot s _ bytes k
  | memWrite addr bytes => exact writeReply_hostMemWrite_slot s addr bytes k
  | memRead addr n =>
    simp only [hostOp]
    split <;> rfl
  | _ => rfl

/-- A run above depth `d` ends above it, and has written no slot up to `S[d]`. -/
theorem RunAbove.keeps_slots {d : Nat} {t u : State} (h : RunAbove d t u) :
    d < u.sp.val ∧ ∀ k : Fin 16, k.val ≤ d → u.slot k = t.slot k := by
  induction h with
  | start _ habove => exact ⟨habove, fun _ _ => rfl⟩
  | op o _ u _ habove ih =>
    obtain ⟨hsp, hslots⟩ := ih
    exact ⟨habove, fun k hk => (hostOp_keeps_live_slot o (hk.trans_lt hsp)).trans (hslots k hk)⟩

/-- Settles O29: the run keeps the slot the call wrote, and at one level above the call's depth that slot is the one the
return pops. -/
theorem returnGoesBackPastTheCall : Obligations.ReturnGoesBackPastTheCall := by
  unfold Obligations.ReturnGoesBackPastTheCall
  intro s t u nnn hcall hstep hrun
  obtain ⟨-, hslots⟩ := hrun.keeps_slots
  refine ⟨hslots, fun hret hsp => ?_⟩
  rw [step_of_decode hcall (Laws.decode_encode (.callAddr nnn))] at hstep
  obtain ⟨hlt, rfl⟩ := exec_callAddr_next hstep
  have hpos : 0 < u.advance.sp.val := by
    rw [State.sp_advance, hsp]
    exact Nat.succ_pos _
  have htop : u.advance.topSlot = ⟨s.sp.val, hlt⟩ := Fin.ext (Nat.sub_eq_of_eq_add hsp)
  refine ⟨_, (step_of_decode hret (Laws.decode_encode .ret)).trans (exec_ret_of_pos _ hpos), ?_,
    Fin.ext (Nat.sub_eq_of_eq_add hsp)⟩
  calc u.advance.slot u.advance.topSlot
      = u.slot ⟨s.sp.val, hlt⟩ := by rw [htop, State.slot_advance]
    _ = s.pc + 2#16 := by simp [hslots ⟨s.sp.val, hlt⟩ le_rfl]

end Sys2Proof.Machine
end

section
/-! PROOFS. The immediate forms (42_immediate.md): a byte of the instruction word loaded into a register or added to it. -/

namespace Sys2Proof.Machine

/-- A register reads as the byte last written to it (10_state.md R11). -/
theorem State.reg_setReg_self (s : State) (x : RegIdx) (b : Byte) : (s.setReg x b).reg x = b := by
  rw [State.reg_setReg, if_pos rfl]

/-- A write of one register leaves every other register as it was (10_state.md R11). -/
theorem State.reg_setReg_of_ne (s : State) {x z : RegIdx} (b : Byte) (h : z ≠ x) : (s.setReg x b).reg z = s.reg z := by
  rw [State.reg_setReg, if_neg h]

/-- A write of one general register changes nothing else (10_state.md R11). -/
theorem sameBut_setReg (s : State) (x : RegIdx) (b : Byte) : SameBut [x] s (s.setReg x b) :=
  ⟨fun _ hz => s.reg_setReg_of_ne b (List.ne_of_not_mem_cons hz), rfl, ⟨rfl, fun _ => rfl⟩, ⟨rfl, rfl⟩, fun _ => rfl, rfl⟩

/-- Settles O30: the instruction is the write of `kk` to register `x`. -/
theorem ldByteLoadsImmediate : Obligations.LdByteLoadsImmediate := by
  unfold Obligations.LdByteLoadsImmediate
  intro x kk s
  exact ⟨Laws.decode_encode (.ldVxByte x kk), _, exec_ldVxByte s x kk, s.reg_setReg_self x kk, rfl, sameBut_setReg s x kk⟩

/-- Settles O31: byte addition is modulo 256, and the sum is the only write, so `VF` changes only as its destination. -/
theorem addByteWrapsWithoutFlag : Obligations.AddByteWrapsWithoutFlag := by
  unfold Obligations.AddByteWrapsWithoutFlag
  intro x kk s
  have hsum : ((s.setReg x (s.reg x + kk)).reg x).toNat = ((s.reg x).toNat + kk.toNat) % 256 := by
    rw [State.reg_setReg_self, BitVec.toNat_add]
  exact ⟨Laws.decode_encode (.addVxByte x kk), _, exec_addVxByte s x kk, hsum, fun hx => s.reg_setReg_of_ne _ hx.symm, rfl,
    sameBut_setReg s x _⟩

end Sys2Proof.Machine
end

section
/-! PROOFS. The register-register ALU family (43_alu.md): what two writes of registers leave, the value of each flag, and the
nine instructions with the low nibbles that are none. -/

namespace Sys2Proof.Machine

/-! ## The two writes of a flag writer (R105) -/

/-- The result stays in `Vx` where `Vx` is not the flag register, which is written after it (R105). -/
theorem reg_setReg_setReg_flagReg (s : State) {x : RegIdx} (r f : Byte) (hx : x ≠ 0xF#4) :
    ((s.setReg x r).setReg Config.flagReg f).reg x = r := by
  rw [State.reg_setReg_of_ne _ f hx, State.reg_setReg_self]

/-- Two writes of general registers change nothing else (10_state.md R11). -/
theorem sameBut_setReg_setReg (s : State) (x y : RegIdx) (a b : Byte) : SameBut [x, y] s ((s.setReg x a).setReg y b) := by
  refine ⟨fun z hz => ?_, rfl, ⟨rfl, fun _ => rfl⟩, ⟨rfl, rfl⟩, fun _ => rfl, rfl⟩
  rw [State.reg_setReg_of_ne _ b (List.ne_of_not_mem_cons (List.not_mem_of_not_mem_cons hz)),
    State.reg_setReg_of_ne _ a (List.ne_of_not_mem_cons hz)]

/-! ## Flags and results as numbers -/

theorem carryFlag_eq (a b : Byte) : carryFlag a b = if a.toNat + b.toNat > 255 then 0x01#8 else 0x00#8 := by
  simp only [carryFlag, flagByte, decide_eq_true_eq]

theorem greaterFlag_eq (a b : Byte) : greaterFlag a b = if a.toNat > b.toNat then 0x01#8 else 0x00#8 := by
  simp only [greaterFlag, flagByte, decide_eq_true_eq]

theorem toNat_flagByte (b : Bool) : (flagByte b).toNat = b.toNat := by
  cases b <;> rfl

theorem toNat_shiftOutRight (a : Byte) : (shiftOutRight a).toNat = a.toNat % 2 := by
  rw [shiftOutRight, toNat_flagByte, BitVec.getLsbD, Nat.toNat_testBit, Nat.pow_zero, Nat.div_one]

/-- Bit 7 is the highest of a byte, so it is the quotient by 128. -/
theorem toNat_shiftOutLeft (a : Byte) : (shiftOutLeft a).toNat = a.toNat / 128 := by
  have ha := a.isLt
  rw [shiftOutLeft, toNat_flagByte, BitVec.getLsbD, Nat.toNat_testBit]
  omega

/-- Byte subtraction is the difference of the integers modulo 256 (R111, R113). -/
theorem toNat_sub_eq_emod (a b : Byte) : ((a - b).toNat : Int) = ((a.toNat : Int) - b.toNat) % 256 := by
  have hb := b.isLt
  rw [BitVec.toNat_sub]
  omega

/-! ## The five flag writers -/

/-- Settles O34: the flag is the last write, and byte addition is modulo 256. -/
theorem addRegistersSetsCarry : Obligations.AddRegistersSetsCarry := by
  unfold Obligations.AddRegistersSetsCarry
  intro x y s
  refine ⟨Laws.decode_encode (.addVxVy x y), _, exec_addVxVy s x y, ?_, fun hx => ?_, rfl, sameBut_setReg_setReg s x _ _ _⟩
  · rw [reg_flagReg_setReg, carryFlag_eq]
  · rw [reg_setReg_setReg_flagReg s _ _ hx, BitVec.toNat_add]

/-- Settles O35: the flag, the last write, compares the operands before either write. -/
theorem subSetsStrictGreater : Obligations.SubSetsStrictGreater := by
  unfold Obligations.SubSetsStrictGreater
  intro x y s
  refine ⟨Laws.decode_encode (.subVxVy x y), _, exec_subVxVy s x y, ?_, fun hx => ?_, rfl, sameBut_setReg_setReg s x _ _ _⟩
  · rw [reg_flagReg_setReg, greaterFlag_eq]
  · rw [reg_setReg_setReg_flagReg s _ _ hx, toNat_sub_eq_emod]

/-- Settles O36: the operands of `SUB` exchanged in the difference and in the flag, not in the destination. -/
theorem subnSetsStrictGreater : Obligations.SubnSetsStrictGreater := by
  unfold Obligations.SubnSetsStrictGreater
  intro x y s
  refine ⟨Laws.decode_encode (.subnVxVy x y), _, exec_subnVxVy s x y, ?_, fun hx => ?_, rfl,
    sameBut_setReg_setReg s x _ _ _⟩
  · rw [reg_flagReg_setReg, greaterFlag_eq]
  · rw [reg_setReg_setReg_flagReg s _ _ hx, toNat_sub_eq_emod]

/-- Settles O37: the instruction's equation does not name `y`; its flag is the remainder by 2 and its result the quotient. -/
theorem shrHalvesAndSetsBitZero : Obligations.ShrHalvesAndSetsBitZero := by
  unfold Obligations.ShrHalvesAndSetsBitZero
  intro x y s
  refine ⟨Laws.decode_encode (.shrVx x y), fun y' => by rw [exec_shrVx, exec_shrVx], _, exec_shrVx s x y, ?_, fun hx => ?_,
    rfl, sameBut_setReg_setReg s x _ _ _⟩
  · rw [reg_flagReg_setReg, toNat_shiftOutRight]
  · rw [reg_setReg_setReg_flagReg s _ _ hx, BitVec.toNat_ushiftRight, Nat.shiftRight_eq_div_pow, Nat.pow_one]

/-- Settles O38: the instruction's equation does not name `y`; its flag is the bit that the doubling pushes out. -/
theorem shlDoublesAndSetsBitSeven : Obligations.ShlDoublesAndSetsBitSeven := by
  unfold Obligations.ShlDoublesAndSetsBitSeven
  intro x y s
  refine ⟨Laws.decode_encode (.shlVx x y), fun y' => by rw [exec_shlVx, exec_shlVx], _, exec_shlVx s x y, ?_, fun hx => ?_,
    rfl, sameBut_setReg_setReg s x _ _ _⟩
  · rw [reg_flagReg_setReg, toNat_shiftOutLeft]
  · rw [reg_setReg_setReg_flagReg s _ _ hx, BitVec.toNat_shiftLeft, Nat.shiftLeft_eq, Nat.pow_one]

/-! ## The undefined low nibbles (R115) -/

/-- A word of the ALU family is dispatched by its low nibble (30_encoding.md R57). -/
theorem decode_formatXYN_alu (x y : RegIdx) (n : BitVec 4) : decode (formatXYN 0x8#4 x y n) = decodeAlu x y (hexOf n) := by
  have htop : hexOf 0x8#4 = .x8 := rfl
  simp [decode, htop]

theorem decodeAlu_of_undefined {n : BitVec 4} (hn : n ∈ [0x8#4, 0x9#4, 0xA#4, 0xB#4, 0xC#4, 0xD#4, 0xF#4]) (x y : RegIdx) :
    decodeAlu x y (hexOf n) = .error .aluNibble := by
  simp only [List.mem_cons, List.not_mem_nil, or_false] at hn
  obtain rfl | rfl | rfl | rfl | rfl | rfl | rfl := hn <;> rfl

/-- Settles O39: the word decodes to no instruction, so the step faults on the state after the advance. -/
theorem undefinedAluNibbleFaults : Obligations.UndefinedAluNibbleFaults := by
  unfold Obligations.UndefinedAluNibbleFaults
  intro s x y n hn hf
  have hd := (decode_formatXYN_alu x y n).trans (decodeAlu_of_undefined hn x y)
  exact ⟨_, step_of_invalid hf hd, rfl, sameBut_setPc s _⟩

/-! ## The four instructions that derive no flag -/

/-- Settles O32: the instruction is the write of the old `V[y]` to register `x`. -/
theorem ldRegisterCopies : Obligations.LdRegisterCopies := by
  unfold Obligations.LdRegisterCopies
  intro x y s
  exact ⟨Laws.decode_encode (.ldVxVy x y), _, exec_ldVxVy s x y, s.reg_setReg_self x _, rfl, sameBut_setReg s x _⟩

/-- Settles O33: the result is the one write, and each operation on bytes acts on every bit by itself. -/
theorem logicOperatesBitwise : Obligations.LogicOperatesBitwise := by
  unfold Obligations.LogicOperatesBitwise
  intro x y s
  refine ⟨⟨Laws.decode_encode (.orVxVy x y), Laws.decode_encode (.andVxVy x y), Laws.decode_encode (.xorVxVy x y)⟩,
    ⟨_, exec_orVxVy s x y, rfl, sameBut_setReg s x _, fun b _ => ?_⟩,
    ⟨_, exec_andVxVy s x y, rfl, sameBut_setReg s x _, fun b _ => ?_⟩,
    ⟨_, exec_xorVxVy s x y, rfl, sameBut_setReg s x _, fun b _ => ?_⟩⟩
  · rw [State.reg_setReg_self, BitVec.getLsbD_or]
  · rw [State.reg_setReg_self, BitVec.getLsbD_and]
  · rw [State.reg_setReg_self, BitVec.getLsbD_xor]

end Sys2Proof.Machine
end

section
/-! PROOFS. Compare, address load and random (44_compare_address_random.md): the register skip on inequality, the write of `I`,
and the one instruction that draws. -/

namespace Sys2Proof.Machine

/-! ## Compare and address load -/

/-- Settles O27: the branches of `SE Vx, Vy` exchanged, and the low nibble is part of the decoding. -/
theorem sneRegistersSkipsOnInequality : Obligations.SneRegistersSkipsOnInequality := by
  unfold Obligations.SneRegistersSkipsOnInequality
  intro x y s
  exact ⟨Laws.decode_encode (.sneVxVy x y), fun _ => decode_formatXYN_of_skipNibble (.inr rfl) x y, _, exec_sneVxVy s x y,
    sameBut_setPc s _, fun h => if_neg h, fun h => if_pos h⟩

/-- The mask of every write of `I` leaves a zero-extended address as it is (10_state.md R13). -/
theorem zext12_masked (nnn : Addr12) : zext12 nnn &&& 0x0FFF#16 = zext12 nnn := by
  apply BitVec.eq_of_toNat_eq
  rw [toNat_zext12_masked, zext12, BitVec.toNat_setWidth_of_le (by decide)]

/-- Settles O41: the mask of the write of `I` keeps the whole address, and nothing else is written. -/
theorem ldILoadsAddress : Obligations.LdILoadsAddress := by
  unfold Obligations.LdILoadsAddress
  intro nnn s
  exact ⟨Laws.decode_encode (.ldIAddr nnn), _, exec_ldIAddr s nnn, zext12_masked nnn, toNat_masked_le _, rfl,
    fun _ _ => rfl, ⟨rfl, fun _ => rfl⟩, ⟨rfl, rfl⟩, fun _ => rfl, rfl⟩

/-! ## Random -/

/-- What a mask keeps is a subset of its bits. -/
theorem and_mask_and_not (b kk : Byte) : b &&& kk &&& ~~~kk = 0x00#8 := by
  rw [BitVec.and_assoc, BitVec.and_not_self]
  exact BitVec.and_zero

/-- Settles O42: the masked draw is the one write of a register, and the draw moves the counter alone. -/
theorem rndStoresMaskedDraw : Obligations.RndStoresMaskedDraw := by
  unfold Obligations.RndStoresMaskedDraw
  intro x kk s
  have hreg : ((s.setReg x (s.nextDraw &&& kk)).consumeDraw).reg x = s.nextDraw &&& kk := by
    rw [State.reg_consumeDraw, State.reg_setReg_self]
  have hsubset : ((s.setReg x (s.nextDraw &&& kk)).consumeDraw).reg x &&& ~~~kk = 0x00#8 := by
    rw [hreg, and_mask_and_not]
  exact ⟨Laws.decode_encode (.rndVxByte x kk), _, exec_rndVxByte s x kk, hreg, hsubset, rfl, rfl,
    fun _ hz => s.reg_setReg_of_ne _ (List.ne_of_not_mem_cons hz), rfl, ⟨rfl, fun _ => rfl⟩, ⟨rfl, rfl⟩, fun _ => rfl⟩

/-- An instruction other than `RND` makes no draw: it completes with any counter, which it leaves alone, so also with its
own. -/
theorem draws_of_exec_next {i : Instr} {s t : State} (hi : ∀ x kk, i ≠ .rndVxByte x kk) (h : exec i s = .next t) :
    t.draws = s.draws := by
  have hown : exec i s = .next (t.withDraws s.draws) := exec_withDraws_of_next s.draws hi h
  rw [h, Host.Outcome.next.injEq] at hown
  calc t.draws = (t.withDraws s.draws).draws := congrArg State.draws hown
    _ = s.draws := rfl

/-- Settles O18, by the instruction of the fetched word: `RND` draws once, and any other leaves the counter as it was. -/
theorem oneDrawPerRndAndNoOther : Obligations.OneDrawPerRndAndNoOther := by
  unfold Obligations.OneDrawPerRndAndNoOther
  intro s t h
  obtain ⟨i, hf, hx⟩ := step_next_cases h
  by_cases hrnd : ∃ x kk, i = .rndVxByte x kk
  · obtain ⟨x, kk, rfl⟩ := hrnd
    rw [exec_rndVxByte] at hx
    cases hx
    exact .inl ⟨x, kk, hf, rfl⟩
  · have hi : ∀ x kk, i ≠ .rndVxByte x kk := fun x kk hxk => hrnd ⟨x, kk, hxk⟩
    exact .inr ⟨fun x kk hw => hi x kk ((fetch_encode_iff hf (.rndVxByte x kk)).mp hw),
      (draws_of_exec_next hi hx).trans s.draws_advance⟩

end Sys2Proof.Machine
end

section
/-! PROOFS. The deferred families (45_deferred_families.md): the top nibble alone refuses a word. -/

namespace Sys2Proof.Machine

/-- The decoder reads no field of a word of family D, E or F beyond the top nibble (30_encoding.md R59). -/
theorem decode_formatNNN_of_deferred {top : BitVec 4} (htop : top ∈ [0xD#4, 0xE#4, 0xF#4]) (nnn : Addr12) :
    decode (formatNNN top nnn) = .error .deferred := by
  simp only [List.mem_cons, List.not_mem_nil, or_false] at htop
  rw [decode, Laws.topOf_formatNNN]
  obtain rfl | rfl | rfl := htop <;> rfl

/-- Settles O40: the word decodes to no instruction, so the step faults on the state after the advance. -/
theorem deferredFamiliesFault : Obligations.DeferredFamiliesFault := by
  unfold Obligations.DeferredFamiliesFault
  intro s top nnn htop hf
  exact ⟨_, step_of_invalid hf (decode_formatNNN_of_deferred htop nnn), rfl, sameBut_setPc s _⟩

end Sys2Proof.Machine
end

section
/-! PROOFS. The host interface (46_host_interface.md): the accessors of registers, timers and depth, ranges of memory read and
written, program load, and timers that no cycle reads. -/

namespace Sys2Proof.Machine

/-! ## Timers and the cycle (R150) -/

/-- An update of the state that the fetch, `PC` and the depth do not see, and with which the advance and every instruction
that completes commute, commutes with the cycle: a fault's report is made of what the update leaves alone. -/
theorem cycle_comm (g : State → State) {s : State} (hfetch : (g s).fetch = s.fetch) (hpc : (g s).pc = s.pc)
    (hsp : (g s).sp = s.sp) (hadv : (g s).advance = g s.advance)
    (hexec : ∀ i t, exec i s.advance = .next t → exec i (g s.advance) = .next (g t)) :
    cycle (g s) = ((cycle s).1, g (cycle s).2) := by
  obtain ⟨t, hstep, hc⟩ | ⟨f, hstep, hc⟩ := cycle_cases s
  · obtain ⟨i, hf, hx⟩ := step_next_cases hstep
    have hstep' : step (g s) = .next (g t) := by
      rw [step_of_decode (hfetch.trans hf) (Laws.decode_encode i), hadv, hexec i t hx]
    rw [hc, cycle_of_step_next hstep']
  · rw [hc]
    obtain ⟨a, hf, rfl⟩ | ⟨w, b, hf, hd, rfl⟩ | ⟨nnn, hf, hfull, rfl⟩ | ⟨hf, hempty, rfl⟩ := step_fault_cases hstep
    all_goals rw [← hfetch] at hf
    · exact cycle_of_fetch_error hf
    · rw [cycle_of_invalid hf hd, hpc, hadv]
      rfl
    · rw [← hsp] at hfull
      rw [cycle_of_step_fault (step_callAddr_of_full hf hfull), hpc, hadv]
      rfl
    · rw [← hsp] at hempty
      rw [cycle_of_step_fault (step_ret_of_empty hf hempty), hpc, hadv]
      rfl

/-- The state after the timer scheduler has written both timers (10_state.md R18). -/
def State.withTimers (d e : Byte) (s : State) : State := (s.setDt d).setSt e

/-- An instruction that completes does so whatever the timers hold, and leaves them alone. -/
theorem exec_withTimers_of_next (d e : Byte) {i : Instr} {s t : State} (h : exec i s = .next t) :
    exec i (s.withTimers d e) = .next (t.withTimers d e) := by
  cases i with
  | callAddr nnn =>
    obtain ⟨hsp, rfl⟩ := exec_callAddr_next h
    exact exec_callAddr_of_lt (s.withTimers d e) nnn hsp
  | ret =>
    obtain ⟨hsp, rfl⟩ := exec_ret_next h
    exact exec_ret_of_pos (s.withTimers d e) hsp
  | _ =>
    simp at h ⊢
    subst h
    rfl

/-- Settles O13: fetch, `PC` and depth do not see the timers, and no instruction reads or writes one. -/
theorem timersDoNotAffectTheCycle : Obligations.TimersDoNotAffectTheCycle := by
  unfold Obligations.TimersDoNotAffectTheCycle
  intro s d e
  have hcycle : cycle (s.withTimers d e) = ((cycle s).1, (cycle s).2.withTimers d e) :=
    cycle_comm (State.withTimers d e) rfl rfl rfl rfl fun _ _ => exec_withTimers_of_next d e
  change (HostReply.status (cycle (s.withTimers d e)).1, (cycle (s.withTimers d e)).2) = _
  rw [hcycle]
  rfl

/-! ## Reading ranges of memory (R147, 20_memory.md R32) -/

/-- A read of a range in memory, or of no byte at any address, answers the bytes in address order and changes nothing. -/
theorem hostOp_memRead_of_le_or_zero (s : State) {addr n : Nat} (h : addr + n ≤ Config.memSize ∨ n = 0) :
    hostOp (.memRead addr n) s = (.bytes ((List.range' addr n).map (Memory.lookup s.mem)), s) := by
  have hread : memRead s.mem addr n = .ok ((List.range' addr n).map (Memory.lookup s.mem)) := by
    obtain hfit | rfl := h
    · exact memRead_ok s.mem n addr hfit
    · rfl
  simp [hostOp, hostMemRead, hread]

/-- A read of a range that leaves memory is refused whole and changes nothing. -/
theorem hostOp_memRead_of_gt (s : State) {addr n : Nat} (h : Config.memSize < addr + n) (hn : 0 < n) :
    hostOp (.memRead addr n) s = (.refusedMemoryAccessViolation, s) := by
  simp [hostOp, hostMemRead, memRead_error s.mem n addr hn h]

/-- Settles O47: entry `k` of the answer is the byte at `addr + k`, which is in memory where there is an entry `k`. -/
theorem hostMemoryRead : Obligations.HostMemoryRead := by
  unfold Obligations.HostMemoryRead
  intro s addr n
  refine ⟨fun h => ⟨_, hostOp_memRead_of_le_or_zero s h, by simp, fun k hk => ?_⟩, hostOp_memRead_of_gt s⟩
  rw [State.readByte_valid s (by omega), List.getElem?_map, List.getElem?_range' hk]
  simp

/-! ## Writing ranges of memory (R147, 20_memory.md R33) -/

/-- A write of a range that leaves memory is refused whole and changes nothing. -/
theorem hostOp_memWrite_of_gt (s : State) {addr : Nat} {bs : List Byte} (h : Config.memSize < addr + bs.length)
    (hbs : bs ≠ []) : hostOp (.memWrite addr bs) s = (.refusedMemoryAccessViolation, s) := by
  simp [hostOp, hostMemWrite, memWrite, hbs, Nat.not_le.mpr h, writeReply]

/-- A write of no byte is accepted at any address and changes nothing. -/
theorem hostOp_memWrite_nil (s : State) (addr : Nat) : hostOp (.memWrite addr []) s = (.ok, s) := rfl

section
variable {s : State} {addr : Nat} {bs : List Byte} (hwf : Memory.wf s.mem = true)
  (hfit : addr + bs.length ≤ Config.memSize)
include hwf hfit

/-- Inside the range a byte reads as written. -/
theorem readByte_setMem_putAll_inside {k : Nat} (hk : k < bs.length) :
    (s.setMem (Memory.putAll s.mem addr bs)).readByte (addr + k) = bs[k]? := by
  have hvalid : addr + k < 4096 := (Nat.add_lt_add_left hk addr).trans_le hfit
  rw [State.readByte_valid _ hvalid, State.mem_setMem, Memory.lookup_putAll_inside bs s.mem addr k hfit hwf hk,
    List.getElem?_eq_getElem hk]

/-- Outside the range a byte reads as before, and the same addresses exist. -/
theorem readByte_setMem_putAll_outside {a : Nat} (ha : a < addr ∨ addr + bs.length ≤ a) :
    (s.setMem (Memory.putAll s.mem addr bs)).readByte a = s.readByte a := by
  simp only [State.readByte, State.mem_setMem, Memory.lookup_putAll_outside bs s.mem addr a hfit hwf ha]

end

/-- Settles O48: the accepted write replaces memory alone, by the bytes put in address order. -/
theorem hostMemoryWrite : Obligations.HostMemoryWrite := by
  unfold Obligations.HostMemoryWrite
  intro s addr bs hwf
  refine ⟨fun hfit => ?_, hostOp_memWrite_of_gt s, ?_⟩
  · exact ⟨_, hostOp_memWrite_of_le s hfit, Memory.wf_putAll bs s.mem addr hfit hwf,
      fun _ => readByte_setMem_putAll_inside hwf hfit, fun _ => readByte_setMem_putAll_outside hwf hfit,
      rfl, fun _ _ => rfl, rfl, ⟨rfl, fun _ => rfl⟩, ⟨rfl, rfl⟩, rfl⟩
  · rintro rfl
    exact hostOp_memWrite_nil s addr

/-! ## Program load (R149) -/

/-- Program load is the host's write at the program base. -/
theorem hostOp_loadProgram (bs : List Byte) (s : State) :
    hostOp (.loadProgram bs) s = hostOp (.memWrite 0x200 bs) s := rfl

/-- Settles O49: the write at 0x200, where 3584 bytes of memory remain. -/
theorem loadProgramCopiesBytes : Obligations.LoadProgramCopiesBytes := by
  unfold Obligations.LoadProgramCopiesBytes
  intro s bs hwf
  rw [hostOp_loadProgram]
  obtain ⟨haccept, hrefuse, -⟩ := hostMemoryWrite s 0x200 bs hwf
  refine ⟨fun hlen => ?_, fun hlen => hrefuse (by omega) (List.ne_nil_of_length_pos (by omega))⟩
  obtain ⟨t, hop, -, hframe⟩ := haccept (by omega)
  exact ⟨t, hop, hframe⟩

/-! ## Registers, timers and the depth (R143 to R146, R148) -/

/-- Settles O45: `set_reg` is the write of one register. -/
theorem hostRegisterAccess : Obligations.HostRegisterAccess := by
  unfold Obligations.HostRegisterAccess
  intro s x b
  exact ⟨rfl, rfl, s.reg_setReg_self x b, rfl, sameBut_setReg s x b⟩

/-- The mask of every write of `I` is the remainder modulo 4096 (decision D8). -/
theorem toNat_masked (a : Word) : (a &&& 0x0FFF#16).toNat = a.toNat % 4096 := by
  rw [BitVec.toNat_and]
  exact Nat.and_two_pow_sub_one_eq_mod a.toNat 12

/-- Above 0xFFE a step is the fetch fault at the first invalid address (40_cycle_decode.md R71). -/
theorem step_of_pc_gt {s : State} (h : 0xFFE < s.pc.toNat) :
    step s = .fault (.memoryAccessViolation (max s.pc.toNat 0x1000) s) := by
  obtain hlast | houtside : s.pc.toNat = 0xFFF ∨ 0x1000 ≤ s.pc.toNat := by omega
  · rw [step_of_fetch_error (s.fetch_last hlast), hlast]
    rfl
  · rw [step_of_fetch_error (s.fetch_outside houtside), max_eq_left houtside]

/-- Settles O46: each operation is the read or the write of its own register; a `PC` above 0xFFE waits for the next fetch. -/
theorem hostSpecialRegisterAccess : Obligations.HostSpecialRegisterAccess := by
  unfold Obligations.HostSpecialRegisterAccess
  intro s a b
  refine ⟨⟨rfl, rfl, rfl, rfl, rfl, Nat.le_of_lt_succ s.sp.isLt⟩, ⟨s.setI a, rfl, toNat_masked a, ?setI⟩,
    ⟨s.setPc a, rfl, rfl, sameBut_setPc s a, step_of_pc_gt (s := s.setPc a)⟩, ⟨s.setDt b, rfl, rfl, ?setDt⟩,
    ⟨s.setSt b, rfl, rfl, ?setSt⟩⟩
  case setI => exact ⟨rfl, fun _ _ => rfl, ⟨rfl, fun _ => rfl⟩, ⟨rfl, rfl⟩, fun _ => rfl, rfl⟩
  all_goals exact ⟨rfl, rfl, fun _ _ => rfl, rfl, ⟨rfl, fun _ => rfl⟩, fun _ => rfl, rfl⟩

end Sys2Proof.Machine
end

section
/-! PROOFS. The faults of a cycle (60_exceptions.md): the four of them with their reports, the state each leaves, and the cycle
after one. -/

namespace Sys2Proof.Machine

/-! ## The four cases (R160 to R168) -/

/-- A fetch that fails was made above 0xFFE and names the first invalid address (40_cycle_decode.md R71). -/
theorem State.pc_of_fetch_error {s : State} {a : Nat} (h : s.fetch = .error a) :
    0xFFF ≤ s.pc.toNat ∧ a = max s.pc.toNat 0x1000 := by
  have hpc : 0xFFE < s.pc.toNat := by
    by_contra hle
    rw [s.fetch_ok (by omega)] at h
    cases h
  have hstep := step_of_pc_gt hpc
  rw [step_of_fetch_error h] at hstep
  cases hstep
  exact ⟨hpc, rfl⟩

/-- Settles O9: a fault has one of the four causes, whose conditions are those of the statement, and each cause faults. -/
theorem stepFaultsExactlyInTheFourCases : Obligations.StepFaultsExactlyInTheFourCases := by
  unfold Obligations.StepFaultsExactlyInTheFourCases
  intro s
  refine ⟨step_ne_refused s, fun f => ⟨fun h => ?_, ?_⟩⟩
  · obtain ⟨a, hf, rfl⟩ | ⟨w, b, hf, hd, rfl⟩ | ⟨nnn, hf, hfull, rfl⟩ | ⟨hf, hempty, rfl⟩ := step_fault_cases h
    · obtain ⟨hpc, rfl⟩ := State.pc_of_fetch_error hf
      exact .inl ⟨hpc, rfl⟩
    · exact .inr (.inl ⟨w, hf, (Laws.invalidWordsAreTheListedOnes w).mp ⟨b, hd⟩, rfl⟩)
    · exact .inr (.inr (.inl ⟨nnn, hf, hfull, rfl⟩))
    · exact .inr (.inr (.inr ⟨hf, hempty, rfl⟩))
  · rintro (⟨hpc, rfl⟩ | ⟨w, hf, hbad, rfl⟩ | ⟨nnn, hf, hfull, rfl⟩ | ⟨hf, hempty, rfl⟩)
    · exact step_of_pc_gt hpc
    · obtain ⟨b, hd⟩ := (Laws.invalidWordsAreTheListedOnes w).mpr hbad
      exact step_of_invalid hf hd
    · exact step_callAddr_of_full hf hfull
    · exact step_ret_of_empty hf hempty

/-! ## The state a fault leaves (R168) -/

/-- Settles O10: each of the four faults carries the state as it was, or the advanced state, in its report. -/
theorem faultLeavesOnlyTheAdvance : Obligations.FaultLeavesOnlyTheAdvance := by
  unfold Obligations.FaultLeavesOnlyTheAdvance
  intro s
  have haddr : s.pc = s.advance.pc - 2#16 := s.pc_advance_sub.symm
  refine ⟨fun addr left h => ?fetch, fun a w left h => ?invalid, fun a w left h => ?overflow,
    fun a w left h => ?underflow⟩
  all_goals
    obtain ⟨_, -, hf⟩ | ⟨_, _, -, -, hf⟩ | ⟨_, -, hfull, hf⟩ | ⟨-, hempty, hf⟩ := step_fault_cases h
    all_goals cases hf
  case fetch => rfl
  case invalid => exact ⟨rfl, sameBut_setPc s _, rfl, haddr⟩
  case overflow => exact ⟨rfl, sameBut_setPc s _, hfull, rfl, haddr⟩
  case underflow => exact ⟨rfl, sameBut_setPc s _, hempty, rfl, haddr⟩

/-! ## The cycle after a fault (R179) -/

/-- A cycle that ends in the fetch fault leaves the state as it was (60_exceptions.md R162). -/
theorem eq_of_cycle_memoryAccessViolation {s t : State} {addr : Nat} (h : cycle s = (.memoryAccessViolation addr, t)) :
    t = s := by
  obtain ⟨u, -, hc⟩ | ⟨f, hstep, hc⟩ := cycle_cases s
  all_goals rw [h] at hc
  · cases hc
  · obtain ⟨_, -, rfl⟩ | ⟨_, _, -, -, rfl⟩ | ⟨_, -, -, rfl⟩ | ⟨-, -, rfl⟩ := step_fault_cases hstep
    all_goals cases hc
    rfl

/-- Every fault but the fetch fault leaves the advanced state (60_exceptions.md R168). -/
theorem left_of_step_fault_of_ne {s : State} {f : Fault} (h : step s = .fault f)
    (hne : ∀ addr left, f ≠ .memoryAccessViolation addr left) : f.left = s.advance := by
  obtain ⟨a, -, rfl⟩ | ⟨_, _, -, -, rfl⟩ | ⟨_, -, -, rfl⟩ | ⟨-, -, rfl⟩ := step_fault_cases h
  · exact absurd rfl (hne a s)
  all_goals rfl

/-- Two advances move `PC` by 4. -/
theorem State.advance_advance (s : State) : s.advance.advance = s.advance.setPc (s.pc + 4#16) :=
  congrArg s.advance.setPc (add_two_add_two s.pc)

/-- Settles O11: the fetch fault leaves the state it was raised in, so it comes again; every other fault leaves the advanced
state, from which the next cycle is an ordinary one. -/
theorem cycleAfterFaultRunsOn : Obligations.CycleAfterFaultRunsOn := by
  unfold Obligations.CycleAfterFaultRunsOn
  refine ⟨fun s t addr h => ?_, fun s t f hstep hne hcycle => ?_⟩
  · obtain rfl := eq_of_cycle_memoryAccessViolation h
    exact ⟨rfl, h⟩
  · obtain rfl : t = s.advance := by
      rw [cycle_of_step_fault hstep, left_of_step_fault_of_ne hstep hne] at hcycle
      exact (Prod.mk.inj hcycle).2.symm
    rw [← s.advance_advance]
    refine ⟨rfl, fun w i hf hd => ?_, fun w hf hbad => ?_, fun hpc => ?_⟩
    · have hrun : step s.advance = exec i s.advance.advance := step_of_decode hf hd
      exact ⟨hrun, fun u hu => cycle_of_step_next (hrun.trans hu), fun g hg => cycle_of_step_fault (hrun.trans hg)⟩
    · obtain ⟨b, hd⟩ := (Laws.invalidWordsAreTheListedOnes w).mpr hbad
      exact cycle_of_invalid hf hd
    · have hpc' : s.advance.pc.toNat = 0x1000 := by
        rw [State.pc_advance]
        bv_omega
      have hf := s.advance.fetch_outside hpc'.ge
      rw [hpc'] at hf
      exact cycle_of_fetch_error hf

end Sys2Proof.Machine
end

section
/-! PROOFS. Reset and the first cycle after it (70_reset_and_hazards.md): the values of the state after the operation, and the
zero word it leaves at the program base. -/

namespace Sys2Proof.Machine

/-! ## Reset (R185) -/

@[simp] theorem reg_hostReset (s : State) (x : RegIdx) : (hostReset s).reg x = 0x00#8 := State.reg_reset x

@[simp] theorem readByte_hostReset (s : State) {a : Nat} (h : a < 4096) : (hostReset s).readByte a = some 0x00#8 :=
  State.readByte_reset a h

/-- Settles O43: the first state is itself the result of the operation, which gives each value whatever state it is made in. -/
theorem resetGivesTheSpecifiedValues : Obligations.ResetGivesTheSpecifiedValues := by
  unfold Obligations.ResetGivesTheSpecifiedValues
  intro s t ht
  obtain ⟨u, rfl⟩ : ∃ u, t = hostReset u := ht.elim (⟨s, ·⟩) (⟨State.reset, ·⟩)
  exact ⟨reg_hostReset u, rfl, rfl, rfl, rfl, rfl, fun _ ha => readByte_hostReset u (Nat.lt_succ_of_le ha), rfl, rfl⟩

/-! ## The first cycle after a bare reset (R186) -/

/-- With nothing loaded the word at the program base is zero (10_state.md R21). -/
theorem fetch_hostReset (s : State) : (hostReset s).fetch = .ok 0x0000#16 := by
  have hpc : (hostReset s).pc.toNat ≤ 0xFFE := show (0x0200#16 : Word).toNat ≤ 0xFFE by decide
  have hmem (a : Nat) : (hostReset s).mem.lookup a = 0x00#8 := rfl
  rw [State.fetch_ok _ hpc, hmem, hmem]
  rfl

/-- The zero word is in family 0 and is not `RET` (30_encoding.md R55). -/
theorem decode_zero_word : ∃ b, decode 0x0000#16 = .error b := ⟨_, rfl⟩

/-- Settles O44: the fetch of the zero word succeeds and its decode fails, so the cycle is that of an invalid word at 0x200. -/
theorem firstCycleAfterResetIsInvalidOpcode : Obligations.FirstCycleAfterResetIsInvalidOpcode := by
  unfold Obligations.FirstCycleAfterResetIsInvalidOpcode
  intro s
  obtain ⟨_, hbad⟩ := decode_zero_word
  have hcycle : cycle (hostReset s) = (.invalidOpcode 0x0200#16 0x0000#16, (hostReset s).advance) :=
    cycle_of_invalid (fetch_hostReset s) hbad
  have hadvance : (hostReset s).advance = (hostReset s).setPc 0x0202#16 := rfl
  simp only [hostOp, hcycle, hadvance]

end Sys2Proof.Machine
end
